-- ==== Sys2Proof/Config.lean ====
section
/-! DEFINITION. The default values of the two open configuration parameters of R5. Every state carries values of its own
for both parameters (R142: the host fixes them before it releases reset). The defaults are only what `State.reset` holds.
The machine is deterministic and leaves no value open (R46), so this file declares no free value. -/

namespace Sys2Proof

/-- `MEM_INIT_LEN` of R5, its default: the length of Memory after reset. -/
def Config.defaultMemInitLen : Nat := 0

/-- `TRACE_EN` of R5, its default: a step emits a trace event. -/
def Config.defaultTraceEn : Bool := true

end Sys2Proof
end

