-- ==== Sys2Proof/Word.lean ====
section
/-! DEFINITION. The byte of the program space (spec 00_scope.md R7, 20_memory.md R31). The data space has no word: a cell
holds a mathematical integer, Lean's `Int`, which no operation wraps or truncates (R6, R16). -/

namespace Sys2Proof

/-- One byte of the program space: 8 bits, value `0 .. 255` (R7). -/
abbrev Byte := BitVec 8

end Sys2Proof
end

