-- ==== Sys2Proof/Syntax.lean ====
section
/-! DEFINITION. The instructions: one constructor per row of spec/opcode_table.json (R50, R51). -/

namespace Sys2Proof

/-- An instruction of the ISA (R50). Operands are naturals under the spec's own names B, C, D, in this order. A
constructor has a D exactly when the layout of its opcode has one. -/
inductive Instr where
  /-- LOAD_CONST, opcode 28: `B` destination cell, `C` immediate value (R101). -/
  | loadConst (b c : Nat)
  /-- LOAD_MEM, opcode 24: `B` destination base, `C` cell count, `D` source base (R103). -/
  | loadMem (b c d : Nat)
  /-- STORE, opcode 17: `B` source cell, `C` destination cell (R105). -/
  | store (b c : Nat)
  /-- SQRT, opcode 19: `B` source cell, `C` reserved, `D` destination cell (R111). -/
  | sqrt (b c d : Nat)
deriving DecidableEq, Repr

end Sys2Proof
end

