-- ==== Sys2Proof/Machine/State.lean ====
section
/-! DEFINITION. The state of one Execution Engine with the configuration the host gives it, and the state after reset
(spec 10_state.md R10 to R27). -/

namespace Sys2Proof.Machine

/-- The status register (R13): bit 0 is Running, 1 is Halted. -/
inductive Status where
  | running
  | halted
deriving DecidableEq, Repr

/-- The kinds of fault the engine can record (R14). `InvalidOperand` is the encoder's alone and never reaches the
register (R121). -/
inductive EngineFault where
  /-- The byte at `pc` is no opcode (R122). -/
  | unknownOpcode
  /-- Fewer bytes remain than the opcode's width (R123). -/
  | truncatedInstruction
  /-- SQRT read a negative cell (R124). -/
  | domainError
deriving DecidableEq, Repr

/-- One trace event: the offset of the opcode byte and the decoded instruction (R19, R90). -/
structure TraceEvent where
  pc : Nat
  instr : Instr
deriving DecidableEq, Repr

/-- A listed cell of Memory: its address and its value. -/
abbrev Cell := Nat × Int

/-- Memory (R16, R17): the cells that are not 0, in rising order of address, and the current length. A cell that is not
listed reads as 0 (R16). -/
structure Memory where
  cells : List Cell
  len : Nat
deriving DecidableEq, Repr

/-- The state. `prog`, `memInitLen` and `traceEn` are the configuration the host fixes before it releases reset (R5, R20,
R142): no step writes them. The rest is the state R10 lists. -/
structure State where
  /-- `PROG`, the program buffer; its length is `L` (R5, R20, R31). -/
  prog : List Byte
  /-- `MEM_INIT_LEN`, the length of Memory after reset (R5, R17). -/
  memInitLen : Nat
  /-- `TRACE_EN`: a step that decodes an instruction emits a trace event (R5, R90). -/
  traceEn : Bool
  /-- The program counter, a byte offset into `prog` (R11). -/
  pc : Nat
  /-- The status register (R13). -/
  status : Status
  /-- The fault register: `none` is the spec's value `None` (R14). -/
  fault : Option EngineFault
  /-- The offset of the faulting instruction: `none` until a fault (R15). -/
  faultPc : Option Nat
  /-- Memory (R16, R17). -/
  mem : Memory
  /-- The trace output, oldest event first (R19). -/
  trace : List TraceEvent
deriving DecidableEq, Repr

/-- Reasons for which the model would stop instead of taking a step. There is none: the engine's own faults are states
it goes to (R127), and every state has a next one (R46, R97). -/
inductive Fault : Type where
deriving DecidableEq, Repr

/-- Reasons for which the model has no meaning for an instruction. -/
inductive Refusal where
  /-- Raised by an arm of `exec` for an instruction that has no meaning yet, of which there is none. Safe: it stops where
  the hardware would go on. -/
  | notModelled (mnemonic : String)
deriving DecidableEq, Repr

/-- The state at reset release, under the host's configuration (R26, R140). -/
def State.resetWith (prog : List Byte) (memInitLen : Nat) (traceEn : Bool) : State where
  prog := prog
  memInitLen := memInitLen
  traceEn := traceEn
  pc := 0
  status := .running
  fault := none
  faultPc := none
  mem := { cells := [], len := memInitLen }
  trace := []

/-- The machine right after reset (R26) with the default configuration of R5 and no program loaded. -/
def State.reset : State :=
  State.resetWith [] Config.defaultMemInitLen Config.defaultTraceEn

end Sys2Proof.Machine
end

