-- ==== Sys2Proof/Machine/Operands.lean ====
section
/-! DEFINITION. The operand forms of the ISA (spec 42_data_movement.md R100, 30_encoding.md R53): the absolute cell
address, the absolute address plus the loop index of LOAD_MEM, and the unsigned immediate. There is no other addressing
mode, and the hardware has no flags (R21), so there is no flag computation. -/

namespace Sys2Proof.Machine

/-- Absolute addressing: the field is the cell address (R100). -/
def absolute (field : Nat) : Nat := field

/-- Absolute addressing plus the loop index, an exact sum of naturals (R40, R102). -/
def indexed (base index : Nat) : Nat := base + index

/-- An immediate operand: the unsigned value of the field, used as it is (R53). -/
def immediate (field : Nat) : Int := Int.ofNat field

end Sys2Proof.Machine
end

