-- ==== Sys2Proof/WellFormed.lean ====
section
/-! DEFINITION. Well-formed instructions: every operand lies in the range of its field (R50, R53). -/

namespace Sys2Proof

/-- A natural fits a field of `w` bytes: `0 .. 256^w - 1` (R53). -/
def fitsField (w v : Nat) : Bool := decide (v < 256 ^ w)

/-- R50 and R53: B fits 2 bytes, C fits 3 bytes (2 in STORE), D fits 3 bytes where it is present. -/
def Instr.wellFormed : Instr → Bool
  | .loadConst b c => fitsField 2 b && fitsField 3 c
  | .loadMem b c d => fitsField 2 b && fitsField 3 c && fitsField 3 d
  | .store b c => fitsField 2 b && fitsField 2 c
  | .sqrt b c d => fitsField 2 b && fitsField 3 c && fitsField 3 d

end Sys2Proof
end

