-- ==== Sys2Proof/Decode.lean ====
section
/-! DEFINITION. The Instruction Codec (spec 30_encoding.md, 40_codec.md): the layout table, `Decode`, `Encode` on the
spec's `(A, B, C, D)` inputs, the byte formats of the four instructions, and programs as dense byte buffers. -/

namespace Sys2Proof

/-! ### Errors -/

/-- What `Decode` raises (R76, R77, R78). -/
inductive DecodeError where
  | unknownOpcode
  | truncatedInstruction
deriving DecidableEq, Repr

/-- What `Encode` raises (R73). -/
inductive EncodeError where
  | unknownOpcode
  | invalidOperand
deriving DecidableEq, Repr

/-! ### Bytes (R7) -/

/-- `LE(b0, b1, ...)`: the unsigned little-endian value of a byte string (R7). -/
def leValue : List Byte → Nat
  | [] => 0
  | x :: rest => x.toNat + 256 * leValue rest

/-- `Bytes_n(v)`: `n` bytes of `v`, lowest-order byte first (R7). -/
def leBytes : Nat → Nat → List Byte
  | 0, _ => []
  | n + 1, v => BitVec.ofNat 8 v :: leBytes n (v / 256)

/-- `PROG[k]` (R7), read only at offsets below the buffer's length. -/
def byteAt (buf : List Byte) (k : Nat) : Byte := buf.getD k 0

/-- `Fetch(off, n)` (R7). -/
def fetchField (buf : List Byte) (off n : Nat) : Nat := leValue ((buf.drop off).take n)

/-! ### Opcodes and layouts (R51) -/

/-- The closed set of opcodes (R50). -/
inductive Opcode where
  | loadConst | loadMem | store | sqrt
deriving DecidableEq, Repr

/-- The opcode byte's value (R51). -/
def Opcode.code : Opcode → Nat
  | .loadConst => 28
  | .loadMem => 24
  | .store => 17
  | .sqrt => 19

/-- The opcode an integer selects. All integers but 17, 19, 24 and 28 select none (R55, R56, R73). -/
def Opcode.ofInt (a : Int) : Option Opcode :=
  if a = 28 then some .loadConst
  else if a = 24 then some .loadMem
  else if a = 17 then some .store
  else if a = 19 then some .sqrt
  else none

/-- The opcode a first byte selects (R55). -/
def Opcode.ofByte (a : Byte) : Option Opcode := Opcode.ofInt a.toNat

/-- One row of the layout table: the widths in bytes of B, C and D, `none` for an absent D. -/
structure Layout where
  bWidth : Nat
  cWidth : Nat
  dWidth : Option Nat
deriving DecidableEq, Repr

/-- The layout table (R51). -/
def Opcode.layout : Opcode → Layout
  | .loadConst => ⟨2, 3, none⟩
  | .loadMem => ⟨2, 3, some 3⟩
  | .store => ⟨2, 2, none⟩
  | .sqrt => ⟨2, 3, some 3⟩

/-- `Width`: total bytes, the opcode byte included (R51, `90_conflicts.md` C2). -/
def Layout.width (l : Layout) : Nat := 1 + l.bWidth + l.cWidth + l.dWidth.getD 0

/-- The instruction with this opcode and these operands. `d` is dropped where the layout has no D (R63). -/
def Opcode.instr (op : Opcode) (b c d : Nat) : Instr :=
  match op with
  | .loadConst => .loadConst b c
  | .loadMem => .loadMem b c d
  | .store => .store b c
  | .sqrt => .sqrt b c d

/-- The opcode of an instruction (R50). -/
def Instr.opcode : Instr → Opcode
  | .loadConst _ _ => .loadConst
  | .loadMem _ _ _ => .loadMem
  | .store _ _ => .store
  | .sqrt _ _ _ => .sqrt

/-- `Width(op)` of the instruction's opcode: 6, 9, 5 or 9 (R54). -/
def Instr.width (i : Instr) : Nat := i.opcode.layout.width

/-- The spec's record `(A, B, C, D)` of an instruction, `none` for an absent operand (R50, R63). -/
structure InstrRecord where
  a : Nat
  b : Nat
  c : Nat
  d : Option Nat
deriving DecidableEq, Repr

/-- An instruction as the record `(A, B, C, D)` that the trace shows (R50, R63, R90). -/
def Instr.record : Instr → InstrRecord
  | .loadConst b c => ⟨28, b, c, none⟩
  | .loadMem b c d => ⟨24, b, c, some d⟩
  | .store b c => ⟨17, b, c, none⟩
  | .sqrt b c d => ⟨19, b, c, some d⟩

/-! ### Decode (R74) -/

/-- `Decode(buf, L, off)` with `L = buf.length`: `(none, off)` at the end of the buffer, an instruction and the offset
after it, or an error, by the tests of R74 in its order (R75 to R78). -/
def decode (buf : List Byte) (off : Nat) : Except DecodeError (Option Instr × Nat) :=
  if off = buf.length then .ok (none, off)
  else if buf.length < off then .error .truncatedInstruction
  else
    match Opcode.ofByte (byteAt buf off) with
    | none => .error .unknownOpcode
    | some op =>
      if buf.length - off < op.layout.width then .error .truncatedInstruction
      else
        let b := fetchField buf (off + 1) op.layout.bWidth
        let c := fetchField buf (off + 1 + op.layout.bWidth) op.layout.cWidth
        let d := fetchField buf (off + 1 + op.layout.bWidth + op.layout.cWidth) (op.layout.dWidth.getD 0)
        .ok (some (op.instr b c d), off + op.layout.width)

/-! ### Encode -/

/-- The bytes of a well-formed instruction, in the formats F6, F9, F5, F9 of R52. -/
def encode : Instr → List Byte
  | .loadConst b c => 0x1C#8 :: (leBytes 2 b ++ leBytes 3 c)
  | .loadMem b c d => 0x18#8 :: (leBytes 2 b ++ leBytes 3 c ++ leBytes 3 d)
  | .store b c => 0x11#8 :: (leBytes 2 b ++ leBytes 2 c)
  | .sqrt b c d => 0x13#8 :: (leBytes 2 b ++ leBytes 3 c ++ leBytes 3 d)

/-- An integer fits a field of `w` bytes: `0 <= v < 256^w` (R71). -/
def inField (w : Nat) (v : Int) : Bool := decide (0 ≤ v ∧ v < 256 ^ w)

/-- A D operand fits where the layout has a D field; where it has none nothing is checked (R72). -/
def inOptionalField (w : Option Nat) (v : Int) : Bool :=
  match w with
  | none => true
  | some n => inField n v

/-- The bytes of the D field, none where the layout has no D (R71, R72). -/
def optionalFieldBytes (w : Option Nat) (v : Nat) : List Byte :=
  match w with
  | none => []
  | some n => leBytes n v

/-- `Encode(A, B, C, D)` on integers or absent operands: operand defaulting (R72), then the checks of R73 in the order
opcode, B, C, D, then the bytes (R71). -/
def encodeFields (a : Int) (b c d : Option Int) : Except EncodeError (List Byte) :=
  match Opcode.ofInt a with
  | none => .error .unknownOpcode
  | some op =>
    if inField op.layout.bWidth (b.getD 0) = false then .error .invalidOperand
    else if inField op.layout.cWidth (c.getD 0) = false then .error .invalidOperand
    else if inOptionalField op.layout.dWidth (d.getD 0) = false then .error .invalidOperand
    else
      .ok (BitVec.ofNat 8 op.code ::
        (leBytes op.layout.bWidth (b.getD 0).toNat ++ leBytes op.layout.cWidth (c.getD 0).toNat ++
          optionalFieldBytes op.layout.dWidth (d.getD 0).toNat))

/-- `Encode` applied to the components of an instruction record (R79, R80). -/
def encodeRecord (r : InstrRecord) : Except EncodeError (List Byte) :=
  encodeFields r.a (some r.b) (some r.c) (r.d.map (fun v => (v : Int)))

/-! ### Programs (R60) -/

/-- The byte buffer of a list of instructions: their encodings one after another, nothing between them (R60). -/
def assemble (is : List Instr) : List Byte := is.flatMap encode

/-- The instructions met when decoding from `off` to the end of the buffer, or the first error (R60). Every instruction
is at least 5 bytes long, so `buf.length / 5 + 1` rounds suffice from any offset. -/
def decodeFrom (buf : List Byte) : Nat → Nat → Except DecodeError (List Instr)
  | 0, _ => .error .truncatedInstruction
  | fuel + 1, off =>
    match decode buf off with
    | .error e => .error e
    | .ok (none, _) => .ok []
    | .ok (some i, next) =>
      match decodeFrom buf fuel next with
      | .error e => .error e
      | .ok is => .ok (i :: is)

/-- The instructions of a whole program buffer, or the first error met (R60). -/
def decodeProgram (buf : List Byte) : Except DecodeError (List Instr) :=
  decodeFrom buf (buf.length / 5 + 1) 0

/-! ### Table words -/

/-- Width in bytes of the longest instruction (R54). -/
def longestInstr : Nat := 9

/-- The bytes of a table word, lowest-order byte first (R7), with every bit above `nbits` zero, up to the longest
instruction. -/
def wordBytes (nbits w : Nat) : List Byte := leBytes longestInstr (w % 2 ^ nbits)

/-- The instruction the decoder reads from the bytes of a table word, `none` where it refuses them. -/
def decodeTableWord (nbits w : Nat) : Option Instr :=
  match decode (wordBytes nbits w) 0 with
  | .ok (found, _) => found
  | .error _ => none

end Sys2Proof
end

