-- ==== Sys2Proof/Machine/Ops.lean ====
section
/-! DEFINITION. The named operations over Memory and over the registers of the engine: `MemRead`, `MemWrite` and growth
(spec 20_memory.md R33 to R35), fetch, the trace event, the advance of `pc`, normal halt, and `raise`, which is the
whole of taking an exception (60_exceptions.md R127). There is no return from one (R129). -/

namespace Sys2Proof.Machine

/-! ### Memory -/

/-- The value listed for an address, 0 where none is listed (R16). -/
def lookupCell : List Cell → Nat → Int
  | [], _ => 0
  | (k, v) :: rest, a => if k = a then v else lookupCell rest a

/-- Puts a cell before the first listed cell of a higher address. -/
def insertCell (a : Nat) (v : Int) : List Cell → List Cell
  | [] => [(a, v)]
  | (k, w) :: rest => if a < k then (a, v) :: (k, w) :: rest else (k, w) :: insertCell a v rest

/-- The cells with the value at one address replaced. A zero is not listed, since an unlisted cell reads as 0. -/
def setCell (cells : List Cell) (a : Nat) (v : Int) : List Cell :=
  let others := cells.filter (fun c => c.1 != a)
  if v = 0 then others else insertCell a v others

/-- The canonical form of the listed cells: addresses strictly rising, and no cell listed that holds 0. -/
abbrev Memory.wf (m : Memory) : Prop :=
  m.cells.Pairwise (fun x y => x.1 < y.1) ∧ ∀ c ∈ m.cells, c.2 ≠ 0

/-- `M[a]`: the current value of a cell, without any side effect (R8, R16). -/
def Memory.get (m : Memory) (a : Nat) : Int := lookupCell m.cells a

/-- `Grow(a)` (R33): the new cells hold 0, so only the length changes. -/
def Memory.grow (m : Memory) (a : Nat) : Memory :=
  { m with len := if m.len ≤ a then a + 1 else m.len }

/-- `MemRead(a, 1)` (R34): grows, then returns the value of the cell. -/
def Memory.read (m : Memory) (a : Nat) : Int × Memory :=
  let grown := m.grow a
  (grown.get a, grown)

/-- `MemWrite(a, 1, v)` (R35): grows, then sets the cell. -/
def Memory.write (m : Memory) (a : Nat) (v : Int) : Memory :=
  let grown := m.grow a
  { grown with cells := setCell grown.cells a v }

/-! ### The engine's registers -/

/-- Fetch and decode at `pc`: `Decode(PROG, L, pc)` (R74, R86). -/
def fetch (s : State) : Except DecodeError (Option Instr × Nat) := decode s.prog s.pc

/-- The fault kind that a failed decode raises in the engine (R88). -/
def engineFaultOf : DecodeError → EngineFault
  | .unknownOpcode => .unknownOpcode
  | .truncatedInstruction => .truncatedInstruction

/-- `emit (pc, instr)` when `TRACE_EN` is set (R90). -/
def State.emit (i : Instr) (s : State) : State :=
  { s with trace := if s.traceEn then s.trace ++ [⟨s.pc, i⟩] else s.trace }

/-- Replaces Memory, which is all that the effect of an instruction may change (R89). -/
def State.withMem (m : Memory) (s : State) : State := { s with mem := m }

/-- `pc <- pc + Width(op)` (R91). -/
def State.advance (n : Nat) (s : State) : State := { s with pc := s.pc + n }

/-- The normal end of a run: `status <- Halted` and nothing else (R87). -/
def State.haltNormally (s : State) : State := { s with status := .halted }

/-- `raise K(off)` (R127): the fault record is written and the run halts. `pc`, Memory and the trace stay. -/
def State.raise (k : EngineFault) (off : Nat) (s : State) : State :=
  { s with fault := some k, faultPc := some off, status := .halted }

/-- A step that has decoded `i` and whose effect left Memory as `m` without a fault: the trace event, the new Memory, the
advance of `pc` (R86, R90, R91). -/
def State.retire (i : Instr) (m : Memory) (s : State) : State :=
  ((s.emit i).withMem m).advance i.width

/-- A step that has decoded `i` and whose effect raised `k` when Memory was `m`: the trace event stays, what the effect did
to Memory before the fault stays, `pc` is not advanced (R86, R113, R127). -/
def State.trap (i : Instr) (k : EngineFault) (m : Memory) (s : State) : State :=
  ((s.emit i).withMem m).raise k s.pc

end Sys2Proof.Machine
end

