-- ==== Sys2Proof/Machine/DataMovement.lean ====
section
/-! DEFINITION. The data movement instructions LOAD_CONST, LOAD_MEM and STORE (spec 42_data_movement.md). -/

namespace Sys2Proof.Machine

/-- LOAD_CONST (R101): `MemWrite(B, 1, C)`. -/
def execLoadConst (b c : Nat) (s : State) : Host.Outcome State Fault Refusal :=
  .next (s.retire (.loadConst b c) (s.mem.write (absolute b) (immediate c)))

/-- One cell copied: `MemWrite(dst, 1, MemRead(src, 1))`, the read first (R103, R105). -/
def copyCell (dst src : Nat) (m : Memory) : Memory :=
  let (v, m') := m.read src
  m'.write dst v

/-- The loop of LOAD_MEM (R103): elements `0, 1, ..., n - 1` copied in ascending order, each read and written before the
next is read. -/
def copyCells (dst src : Nat) : Nat → Memory → Memory
  | 0, m => m
  | n + 1, m => copyCell (indexed dst n) (indexed src n) (copyCells dst src n m)

/-- LOAD_MEM (R103): `C` cells copied from base `D` to base `B`. -/
def execLoadMem (b c d : Nat) (s : State) : Host.Outcome State Fault Refusal :=
  .next (s.retire (.loadMem b c d) (copyCells b d c s.mem))

/-- STORE (R105): cell `B` copied into cell `C`. -/
def execStore (b c : Nat) (s : State) : Host.Outcome State Fault Refusal :=
  .next (s.retire (.store b c) (copyCell (absolute c) (absolute b) s.mem))

end Sys2Proof.Machine
end

