-- ==== Sys2Proof/Machine/Sqrt.lean ====
section
/-! DEFINITION. The integer square root and the instruction SQRT (spec 43_sqrt.md). -/

namespace Sys2Proof.Machine

/-- The floor square root by base-4 digits, for `n < 4 ^ fuel`: the root of `n / 4`, doubled, and one more where that
is still a root of at most `n`. -/
def isqrtDigits : Nat → Nat → Nat
  | 0, _ => 0
  | fuel + 1, n =>
    let r := 2 * isqrtDigits fuel (n / 4)
    if (r + 1) * (r + 1) ≤ n then r + 1 else r

/-- `isqrt(n)` (R110): the `r` with `r * r <= n < (r + 1) * (r + 1)`. -/
def isqrt (n : Nat) : Nat := isqrtDigits (n.log2 + 1) n

/-- SQRT (R111): the value of cell `B` is read; if it is negative `DomainError` is raised and nothing is written (R113);
else its floor square root is written to cell `D`. `C` is reserved and ignored (R57). -/
def execSqrt (b c d : Nat) (s : State) : Host.Outcome State Fault Refusal :=
  let (v, m) := s.mem.read (absolute b)
  if v < 0 then .next (s.trap (.sqrt b c d) .domainError m)
  else .next (s.retire (.sqrt b c d) (m.write (absolute d) (Int.ofNat (isqrt v.toNat))))

end Sys2Proof.Machine
end

