-- ==== Sys2Proof/Machine/Dispatch.lean ====
section
/-! DEFINITION. The effect of a decoded instruction, by its opcode (spec 41_execution_engine.md R89): everything that
`Step` does from the trace event on (R86). -/

namespace Sys2Proof.Machine

def exec (i : Instr) (s : State) : Host.Outcome State Fault Refusal :=
  match i with
  | .loadConst b c => Sys2Proof.Machine.execLoadConst b c s
  | .loadMem b c d => Sys2Proof.Machine.execLoadMem b c d s
  | .store b c => Sys2Proof.Machine.execStore b c s
  | .sqrt b c d => Sys2Proof.Machine.execSqrt b c d s

end Sys2Proof.Machine
end

