-- ==== Sys2Proof/Machine/HostInterface.lean ====
section
/-! DEFINITION. The host's side of the machine: the status interface and `Peek` (spec 10_state.md R25), the two events the
host causes (70_reset_and_hazards.md R140, R142), the numeric codes of the registers (R13, R14, R120), and the placing of
an instruction's bytes where the engine fetches next. -/

namespace Sys2Proof.Machine

/-- `Peek(a)` (R25): the value of a cell, read by the host without growing Memory. -/
def State.peek (s : State) (a : Nat) : Int := s.mem.get a

/-- What the host reads of an engine, beside `Peek` (R25). -/
structure HostView where
  status : Status
  fault : Option EngineFault
  faultPc : Option Nat
  pc : Nat
  len : Nat
  trace : List TraceEvent
deriving DecidableEq, Repr

/-- The read-only status interface (R25). -/
def State.hostView (s : State) : HostView where
  status := s.status
  fault := s.fault
  faultPc := s.faultPc
  pc := s.pc
  len := s.mem.len
  trace := s.trace

/-- The host asserts and releases reset, in any state: the program buffer and the configuration stay, all else takes its
reset value (R140, R144). -/
def State.assertReset (s : State) : State := State.resetWith s.prog s.memInitLen s.traceEn

/-- The four error kinds of the hardware (R120). -/
inductive ErrorKind where
  | unknownOpcode
  | truncatedInstruction
  | domainError
  | invalidOperand
deriving DecidableEq, Repr

/-- The numeric code of an error kind, 1 to 4; code 0 means no fault (R120). -/
def ErrorKind.code : ErrorKind → Nat
  | .unknownOpcode => 1
  | .truncatedInstruction => 2
  | .domainError => 3
  | .invalidOperand => 4

/-- The kind of a decoder error (R120). -/
def kindOfDecodeError : DecodeError → ErrorKind
  | .unknownOpcode => .unknownOpcode
  | .truncatedInstruction => .truncatedInstruction

/-- The kind of an encoder error (R120). -/
def kindOfEncodeError : EncodeError → ErrorKind
  | .unknownOpcode => .unknownOpcode
  | .invalidOperand => .invalidOperand

/-- The kind of a fault the engine records (R120). -/
def kindOfEngineFault : EngineFault → ErrorKind
  | .unknownOpcode => .unknownOpcode
  | .truncatedInstruction => .truncatedInstruction
  | .domainError => .domainError

/-- The fault register as a number (R14): 0 for no fault. -/
def faultRegisterCode : Option EngineFault → Nat
  | none => 0
  | some k => (kindOfEngineFault k).code

/-- The status register as one bit (R13). -/
def statusBit : Status → BitVec 1
  | .running => 0
  | .halted => 1

/-- A buffer with `bytes` laid over it from offset `at_` on, lengthened with zero bytes where it is too short. -/
def overlay (buf : List Byte) (at_ : Nat) (bytes : List Byte) : List Byte :=
  buf.take at_ ++ List.replicate (at_ - buf.length) 0 ++ bytes ++ buf.drop (at_ + bytes.length)

/-- The state with `bytes` in the program buffer at `pc` and the engine running, so that the next step decodes them. This
stands for the host's loading of a program (R142). -/
def State.placeAtPc (s : State) (bytes : List Byte) : State :=
  { s with prog := overlay s.prog s.pc bytes, status := .running }

end Sys2Proof.Machine
end

