-- ==== Sys2Proof/Machine/Step.lean ====
section
/-! DEFINITION. One transition of the Execution Engine (spec 41_execution_engine.md R86). -/

namespace Sys2Proof.Machine

/-- `Step` (R86): nothing in `Halted` (R97); at the end of the buffer the normal halt (R87); a failed decode raises its
fault at `pc` (R88); a decoded instruction is executed (R89 to R91). -/
def step (s : State) : Host.Outcome State Fault Refusal :=
  match s.status with
  | .halted => .next s
  | .running =>
    match fetch s with
    | .error e => .next (s.raise (engineFaultOf e) s.pc)
    | .ok (none, _) => .next s.haltNormally
    | .ok (some i, _) => exec i s

/-- The state with an opcode-table word stored where the next step fetches, and the engine running. -/
def State.withFetchWord (s : State) (nbits w : Nat) : State := s.placeAtPc (wordBytes nbits w)

end Sys2Proof.Machine
end

