-- ==== Sys2Proof/Machine/Run.lean ====
section
/-! DEFINITION. `Run`: steps until the engine is halted (spec 41_execution_engine.md R93), and the effects of a list of
instructions one after another (R43, R95). -/

namespace Sys2Proof.Machine

/-- At most `n` steps, stopping as soon as the engine is halted (R93). -/
def runSteps : Nat → State → Host.Outcome State Fault Refusal
  | 0, s => .next s
  | n + 1, s =>
    match s.status with
    | .halted => .next s
    | .running =>
      match step s with
      | .next t => runSteps n t
      | .fault r => .fault r
      | .refused r => .refused r

/-- `Run` (R93). A run from any offset takes at most `L div 5 + 1` steps (R94), so this budget stops no run early. -/
def run (s : State) : Host.Outcome State Fault Refusal := runSteps (s.prog.length / 5 + 1) s

/-- The instructions of a list executed one after another (R43, R95). -/
def execAll : List Instr → State → Host.Outcome State Fault Refusal
  | [], s => .next s
  | i :: rest, s =>
    match exec i s with
    | .next t => execAll rest t
    | .fault r => .fault r
    | .refused r => .refused r

end Sys2Proof.Machine
end

