-- ==== Sys2Proof/Safety.lean ====
section
/-! DEFINITION. What a good state and a good end of a run are (spec 10_state.md R12 to R18, 60_exceptions.md R128 and
R137, 70_reset_and_hazards.md R143). -/

namespace Sys2Proof.Machine

/-- A run ended normally: halted without a fault (R14, R137, R143). -/
abbrev State.EndedNormally (s : State) : Prop := s.status = .halted ∧ s.fault = none

/-- A run failed: a fault is recorded (R137). -/
abbrev State.Failed (s : State) : Prop := s.fault ≠ none

/-- The value invariant (R18): every cell is in `[0, 2^24 - 1]`. -/
abbrev Memory.InRange (m : Memory) : Prop := ∀ a, 0 ≤ m.get a ∧ m.get a ≤ 16777215

/-- No cell at or past the length holds a value (R16). -/
abbrev Memory.Bounded (m : Memory) : Prop := ∀ a, m.len ≤ a → m.get a = 0

/-- The program counter lies in the buffer or at its end (R12). -/
abbrev State.PcInProgram (s : State) : Prop := s.pc ≤ s.prog.length

/-- The fault record is consistent (R13, R14, R15): without a fault there is no fault offset, and a halted engine stands
at the end of the buffer; with a fault the engine is halted and the fault offset is `pc`, which lies before the end. -/
abbrev State.FaultRecordOk (s : State) : Prop :=
  (s.fault = none → s.faultPc = none ∧ (s.status = .halted → s.pc = s.prog.length)) ∧
  (s.fault ≠ none → s.status = .halted ∧ s.faultPc = some s.pc ∧ s.pc < s.prog.length)

/-- Two states under the same configuration: the program buffer and the two parameters (R5, R20). -/
abbrev State.SameConfig (s t : State) : Prop :=
  t.prog = s.prog ∧ t.memInitLen = s.memInitLen ∧ t.traceEn = s.traceEn

/-- The trace output with the event of an instruction at `pc` appended when `TRACE_EN` is set (R90). -/
def State.traceWith (s : State) (i : Instr) : List TraceEvent :=
  if s.traceEn then s.trace ++ [⟨s.pc, i⟩] else s.trace

/-- Memory after a sequence of accesses to it, each an address with the value to write, or `none` for a read (R32). -/
def accessAll (m : Memory) : List (Nat × Option Int) → Memory
  | [] => m
  | (a, none) :: rest => accessAll (m.read a).2 rest
  | (a, some v) :: rest => accessAll (m.write a v) rest

/-- The engine's invariant: every state reachable from reset has it, whatever the host's configuration. -/
structure State.Inv (s : State) : Prop where
  memCanonical : s.mem.wf
  memBounded : s.mem.Bounded
  memInRange : s.mem.InRange
  pcInProgram : s.PcInProgram
  faultRecord : s.FaultRecordOk

end Sys2Proof.Machine
end

