-- ==== Sys2Proof/Certificates/Slice0/Obligations.lean ====
section
/-! DEFINITION. The statements for the provers. Each docstring names the rule of the spec the statement formalises, and
says so where the spec marks the rule as its own decision (`D<n>` of spec/92_eei_decisions.md) or as derived. -/

open Sys2Proof Sys2Proof.Machine

/-! ### The codec -/

/-- R66 and R79, the round-trip law: encoding a well-formed instruction succeeds with as many bytes as its width, and
decoding those bytes, alone or inside any buffer, gives the instruction back. -/
def Obligations.DecodeOfEncode : Prop :=
  ∀ i : Instr, i.wellFormed = true →
    encodeRecord i.record = .ok (encode i) ∧ (encode i).length = i.width ∧
    decode (encode i) 0 = .ok (some i, i.width) ∧
    ∀ before after : List Byte,
      decode (before ++ encode i ++ after) before.length = .ok (some i, before.length + i.width)

/-- The converse law, R80 (derived in the spec): a decoded instruction is well formed and encodes to exactly the bytes it
was decoded from; every byte string of an opcode's width that starts with the opcode is the encoding of exactly one
well-formed instruction. -/
def Obligations.EncodeOfDecode : Prop :=
  (∀ (buf : List Byte) (off n : Nat) (i : Instr), decode buf off = .ok (some i, n) →
    i.wellFormed = true ∧ encodeRecord i.record = .ok ((buf.drop off).take (n - off))) ∧
  (∀ (l : List Byte) (op : Opcode), Opcode.ofByte (byteAt l 0) = some op → l.length = op.layout.width →
    ∃! i : Instr, i.wellFormed = true ∧ encode i = l)

/-- R74 to R78 and R81: which of the four outcomes `Decode` has, for every buffer and offset. The order of the tests, the
outcome past the end and the offset returned at the end are the spec's decisions D3, D4 and D5. -/
def Obligations.DecodeOutcomes : Prop :=
  ∀ (buf : List Byte) (off : Nat),
    (off = buf.length → decode buf off = .ok (none, off)) ∧
    (buf.length < off → decode buf off = .error .truncatedInstruction) ∧
    (off < buf.length →
      (Opcode.ofByte (byteAt buf off) = none → decode buf off = .error .unknownOpcode) ∧
      (∀ op, Opcode.ofByte (byteAt buf off) = some op →
        (buf.length - off < op.layout.width → decode buf off = .error .truncatedInstruction) ∧
        (op.layout.width ≤ buf.length - off →
          ∃ i : Instr, i.opcode = op ∧ i.wellFormed = true ∧ decode buf off = .ok (some i, off + op.layout.width))))

/-- R56: exactly 252 first bytes are illegal and each raises `UnknownOpcode` wherever it stands; no operand value makes
one of the four opcodes illegal; an opcode whose encoding is cut short raises `TruncatedInstruction`. -/
def Obligations.IllegalEncodings : Prop :=
  ((List.range 256).filter (fun a => (Opcode.ofByte (BitVec.ofNat 8 a)).isNone)).length = 252 ∧
  ∀ (buf : List Byte) (off : Nat), off < buf.length →
    ((byteAt buf off).toNat ∉ [17, 19, 24, 28] → decode buf off = .error .unknownOpcode) ∧
    ((byteAt buf off).toNat ∈ [17, 19, 24, 28] → ∃ op : Opcode, op.code = (byteAt buf off).toNat ∧
      (op.layout.width ≤ buf.length - off →
        ∃ i : Instr, i.opcode = op ∧ decode buf off = .ok (some i, off + op.layout.width)) ∧
      (buf.length - off < op.layout.width → decode buf off = .error .truncatedInstruction))

/-- R71 and R73 (the kinds of error rest on the spec's decisions D6 and D7): an integer that is no opcode is
`UnknownOpcode` whatever the operands; with an opcode, a layout operand out of its field's range is `InvalidOperand`, and
otherwise `Encode` answers the instruction's bytes. -/
def Obligations.EncodeOutcomes : Prop :=
  ∀ (a : Int) (b c d : Option Int),
    (a ∉ [17, 19, 24, 28] → encodeFields a b c d = .error .unknownOpcode) ∧
    ∀ op : Opcode, a = op.code →
      let fits : Prop :=
        (0 ≤ b.getD 0 ∧ b.getD 0 < 256 ^ op.layout.bWidth) ∧ (0 ≤ c.getD 0 ∧ c.getD 0 < 256 ^ op.layout.cWidth) ∧
        (∀ w, op.layout.dWidth = some w → 0 ≤ d.getD 0 ∧ d.getD 0 < 256 ^ w)
      (fits → encodeFields a b c d = .ok (encode (op.instr (b.getD 0).toNat (c.getD 0).toNat (d.getD 0).toNat))) ∧
      (¬ fits → encodeFields a b c d = .error .invalidOperand)

/-- R72 (the spec's decision D6 makes it part of `Encode`): an absent operand is encoded as 0, and the D given for an
instruction whose layout has no D is dropped unchecked. -/
def Obligations.OperandDefaulting : Prop :=
  ∀ (a : Int) (b c d d' : Option Int),
    encodeFields a none c d = encodeFields a (some 0) c d ∧
    encodeFields a b none d = encodeFields a b (some 0) d ∧
    encodeFields a b c none = encodeFields a b c (some 0) ∧
    encodeFields 28 b c d = encodeFields 28 b c d' ∧ encodeFields 17 b c d = encodeFields 17 b c d'

/-- R59 (derived in the spec): the opcode bytes are pairwise distinct and the code is prefix-free: a well-formed
instruction whose encoding begins another's is that instruction. -/
def Obligations.EncodingsPrefixFree : Prop :=
  (∀ o o' : Opcode, o.code = o'.code → o = o') ∧
  ∀ i j : Instr, i.wellFormed = true → j.wellFormed = true → encode i <+: encode j → i = j

/-- The three byte listings of the source (R65) decode to their instructions and make a program of 20 bytes; so do, to
theirs, the LOAD_MEM bytes of the worked example of R103, which no source listing gives and the spec derives (N12). -/
def Obligations.KnownWordsDecode : Prop :=
  decode [0x1C, 0x05, 0x00, 0x2A, 0x00, 0x00] 0 = .ok (some (.loadConst 5 42), 6) ∧
  decode [0x11, 0x05, 0x00, 0x06, 0x00] 0 = .ok (some (.store 5 6), 5) ∧
  decode [0x13, 0x06, 0x00, 0x00, 0x00, 0x00, 0x07, 0x00, 0x00] 0 = .ok (some (.sqrt 6 0 7), 9) ∧
  (assemble [.loadConst 5 42, .store 5 6, .sqrt 6 0 7]).length = 20 ∧
  decode [0x18, 0x00, 0x00, 0x03, 0x00, 0x00, 0x01, 0x00, 0x00] 0 = .ok (some (.loadMem 0 3 1), 9)

/-- R60: the buffer of a list of instructions is as long as their widths together and decodes to that list; a buffer that
decodes to its end is the buffer of the decoded list; the empty program does nothing; a run from reset ends normally
at the end of a well-formed program, and faults at the first bad offset of any other buffer. What the fault leaves (its
kind and offset recorded, `pc` at that offset) is the spec's decision D1, and that the bounds of `run` and
`decodeProgram` suffice is the model's inference (assumption log 7). -/
def Obligations.ProgramBuffer : Prop :=
  (∀ is : List Instr, (∀ i ∈ is, i.wellFormed = true) →
    (assemble is).length = (is.map Instr.width).sum ∧ decodeProgram (assemble is) = .ok is) ∧
  (∀ (buf : List Byte) (is : List Instr), decodeProgram buf = .ok is →
    (∀ i ∈ is, i.wellFormed = true) ∧ assemble is = buf) ∧
  (∀ (n : Nat) (tr : Bool), ∃ t, run (State.resetWith [] n tr) = .next t ∧ t.EndedNormally ∧ t.pc = 0 ∧
    t.mem = ⟨[], n⟩ ∧ t.trace = []) ∧
  (∀ (buf : List Byte) (n : Nat) (tr : Bool), ∃ t, run (State.resetWith buf n tr) = .next t ∧
    (∀ is, decodeProgram buf = .ok is → t.EndedNormally ∧ t.pc = buf.length) ∧
    (∀ e, decodeProgram buf = .error e →
      ∃ is : List Instr, (∀ i ∈ is, i.wellFormed = true) ∧ assemble is = buf.take (assemble is).length ∧
        decode buf (assemble is).length = .error e ∧
        t.status = .halted ∧ t.fault = some (engineFaultOf e) ∧ t.faultPc = some (assemble is).length ∧
        t.pc = (assemble is).length))

/-! ### Memory -/

/-- R34: after any sequence of accesses since reset, `MemRead` returns the value most recently written to the address, or
0 if none was; it changes no cell, and it changes the length exactly when the address is at or past it. -/
def Obligations.ReadReturnsLatestWrite : Prop :=
  ∀ (n : Nat) (accesses : List (Nat × Option Int)) (a : Nat),
    let m := accessAll ⟨[], n⟩ accesses
    (m.read a).1 = (((accesses.filter (fun x => x.1 == a)).filterMap (fun x => x.2)).getLast?).getD 0 ∧
    (m.read a).2.cells = m.cells ∧ (m.read a).2.len = if m.len ≤ a then a + 1 else m.len

/-- R25 (the spec's decision D16) and R16: `Peek` shows what a read would return, and 0 at or past the length. -/
def Obligations.PeekShowsWhatReadReturns : Prop :=
  ∀ (s : State) (a : Nat),
    s.peek a = (s.mem.read a).1 ∧ (s.mem.Bounded → s.mem.len ≤ a → s.peek a = 0)

/-! ### The instructions -/

/-- R101: LOAD_CONST completes in every state; cell B holds C, every other cell and all other state is as before, Memory
grows to hold B, `pc` advances by 6, and the instruction is traced. That `exec` does the last two is the
model's division of the step (assumption log 6); the point of the trace event is the spec's decision D13. -/
def Obligations.LoadConstResult : Prop :=
  ∀ (b c : Nat) (s : State), ∃ t, exec (.loadConst b c) s = .next t ∧
    t.mem.get b = c ∧ (∀ a, a ≠ b → t.mem.get a = s.mem.get a) ∧ t.mem.len = max s.mem.len (b + 1) ∧
    t.pc = s.pc + 6 ∧ t.status = s.status ∧ t.fault = s.fault ∧ t.faultPc = s.faultPc ∧ s.SameConfig t ∧
    t.trace = s.traceWith (.loadConst b c)

/-- R103 in the closed form of R104 (derived in the spec): LOAD_MEM completes in every state; without a harmful overlap
the destination cells hold what the source cells held; where the source lies below the destination and the ranges
overlap, the first `B - D` source cells repeat through the destination; every other cell is as before; `C = 0` touches
nothing, and otherwise Memory grows to hold both ranges; `pc` advances by 9, and the instruction is traced. That `exec`
does the last two is the model's division of the step (assumption log 6); the point of the trace event is the spec's
decision D13. -/
def Obligations.LoadMemResult : Prop :=
  ∀ (b c d : Nat) (s : State), ∃ t, exec (.loadMem b c d) s = .next t ∧
    (∀ j, j < c → t.mem.get (b + j) = if b ≤ d ∨ d + c ≤ b then s.mem.get (d + j) else s.mem.get (d + j % (b - d))) ∧
    (∀ a, a < b ∨ b + c ≤ a → t.mem.get a = s.mem.get a) ∧
    t.mem.len = (if c = 0 then s.mem.len else max s.mem.len (max (d + c) (b + c))) ∧
    t.pc = s.pc + 9 ∧ t.status = s.status ∧ t.fault = s.fault ∧ t.faultPc = s.faultPc ∧ s.SameConfig t ∧
    t.trace = s.traceWith (.loadMem b c d)

/-- The order of R103: a count of 0 leaves Memory alone, a count of 1 is one read and then one write, and a copy of
`m + n` cells is the copy of the first `m` and then, from what that left, of the other `n`. -/
def Obligations.LoadMemCopiesInAscendingOrder : Prop :=
  (∀ (b d : Nat) (s : State), ∃ t, exec (.loadMem b 0 d) s = .next t ∧ t.mem = s.mem) ∧
  (∀ (b d : Nat) (s : State), ∃ t, exec (.loadMem b 1 d) s = .next t ∧
    t.mem = (s.mem.read d).2.write b (s.mem.read d).1) ∧
  (∀ (b m n d : Nat) (s : State), ∃ t u v, exec (.loadMem b m d) s = .next t ∧
    exec (.loadMem (b + m) n (d + m)) t = .next u ∧ exec (.loadMem b (m + n) d) s = .next v ∧ v.mem = u.mem)

/-- R105: STORE completes in every state; cell C holds what cell B held, every other cell and all other state is as
before, Memory grows to hold both, `pc` advances by 5, and the instruction is traced. That `exec` does the last two is the
model's division of the step (assumption log 6); the point of the trace event is the spec's decision D13. -/
def Obligations.StoreResult : Prop :=
  ∀ (b c : Nat) (s : State), ∃ t, exec (.store b c) s = .next t ∧
    t.mem.get c = s.mem.get b ∧ (∀ a, a ≠ c → t.mem.get a = s.mem.get a) ∧
    t.mem.len = max s.mem.len (max (b + 1) (c + 1)) ∧
    t.pc = s.pc + 5 ∧ t.status = s.status ∧ t.fault = s.fault ∧ t.faultPc = s.faultPc ∧ s.SameConfig t ∧
    t.trace = s.traceWith (.store b c)

/-- R106 (derived in the spec): STORE has the effect on Memory of the one-cell LOAD_MEM with the operands renamed; the two
differ in encoding, width and advance of `pc`. -/
def Obligations.StoreIsOneCellLoadMem : Prop :=
  ∀ (src dst : Nat) (s : State), ∃ t u, exec (.store src dst) s = .next t ∧ exec (.loadMem dst 1 src) s = .next u ∧
    t.mem = u.mem ∧ encode (.store src dst) ≠ encode (.loadMem dst 1 src) ∧
    (Instr.store src dst).width = 5 ∧ (Instr.loadMem dst 1 src).width = 9 ∧ t.pc = s.pc + 5 ∧ u.pc = s.pc + 9

/-- R111 with R110: where the source cell is not negative, SQRT completes; cell D holds the floor of the square root of
what cell B held, every other cell and all other state is as before, Memory grows to hold both, `pc` advances by 9, and
the instruction is traced. That `exec` does the last two is the model's division of the step (assumption log 6); the
point of the trace event is the spec's decision D13. -/
def Obligations.SqrtResult : Prop :=
  ∀ (b c d : Nat) (s : State), 0 ≤ s.mem.get b → ∃ (t : State) (r : Nat), exec (.sqrt b c d) s = .next t ∧
    (r : Int) * r ≤ s.mem.get b ∧ s.mem.get b < ((r : Int) + 1) * (r + 1) ∧
    t.mem.get d = r ∧ (∀ a, a ≠ d → t.mem.get a = s.mem.get a) ∧
    t.mem.len = max s.mem.len (max (b + 1) (d + 1)) ∧
    t.pc = s.pc + 9 ∧ t.status = s.status ∧ t.fault = s.fault ∧ t.faultPc = s.faultPc ∧ s.SameConfig t ∧
    t.trace = s.traceWith (.sqrt b c d)

/-- R113 and R127 (the spec's decisions D1 and D12): where the source cell is negative, SQRT raises `DomainError` at `pc`:
the run halts, `pc` stays, no cell changes, Memory has grown to hold B and not D, and the instruction is traced (the
spec's decision D13; that `exec` does it is assumption log 6). -/
def Obligations.SqrtOfNegativeRaisesDomainError : Prop :=
  ∀ (b c d : Nat) (s : State), s.mem.get b < 0 → ∃ t, exec (.sqrt b c d) s = .next t ∧
    t.status = .halted ∧ t.fault = some .domainError ∧ t.faultPc = some s.pc ∧ t.pc = s.pc ∧
    t.mem.cells = s.mem.cells ∧ t.mem.len = max s.mem.len (b + 1) ∧ s.SameConfig t ∧
    t.trace = s.traceWith (.sqrt b c d)

/-- R111 and R57 (the spec's decision D21): two SQRT that differ only in the reserved C leave states that differ in
nothing but the trace. -/
def Obligations.SqrtIgnoresItsReservedField : Prop :=
  ∀ (b c c' d : Nat) (s : State), ∃ t u, exec (.sqrt b c d) s = .next t ∧ exec (.sqrt b c' d) s = .next u ∧
    u = { t with trace := u.trace }

/-- R110: `isqrt` is the floor square root, with the properties and the values the rule lists. -/
def Obligations.IsqrtIsTheFloorSquareRoot : Prop :=
  (∀ n r : Nat, r = isqrt n ↔ r * r ≤ n ∧ n < (r + 1) * (r + 1)) ∧
  (∀ n, isqrt n ≤ n) ∧ (∀ m n, m ≤ n → isqrt m ≤ isqrt n) ∧ (∀ n, isqrt n = n ↔ n = 0 ∨ n = 1) ∧
  isqrt 42 = 6 ∧ isqrt 0 = 0 ∧ isqrt 1 = 1 ∧ isqrt 2 = 1 ∧ isqrt 3 = 1 ∧ isqrt 4 = 2 ∧ isqrt 15 = 3 ∧
  isqrt 16 = 4 ∧ isqrt 65535 = 255 ∧ isqrt 65536 = 256 ∧ isqrt 16777215 = 4095

/-- R112 (derived in the spec): from any value of at least 2, repeated square roots reach 1, where they stay. -/
def Obligations.RepeatedIsqrtReachesOne : Prop :=
  isqrt 0 = 0 ∧ isqrt 1 = 1 ∧ ∀ n, 2 ≤ n → ∃ k, ∀ j, k ≤ j → isqrt^[j] n = 1

/-! ### The step -/

/-- When the bytes at `pc` of a running engine decode to an instruction, that instruction is well formed, it ends where its
width says, and the step is `exec` of it. R86 gives the step as a whole; that `exec` holds the trace event and the
advance of `pc` too, so that the step adds nothing around it, is the model's own division (assumption log 6). -/
def Obligations.StepRunsTheDecodedInstruction : Prop :=
  ∀ (s : State) (i : Instr) (n : Nat), s.status = .running → decode s.prog s.pc = .ok (some i, n) →
    i.wellFormed = true ∧ n = s.pc + i.width ∧ n ≤ s.prog.length ∧ step s = exec i s

/-- R46 (derived in the spec): every state has a next state. That the engine's faults are next states, so that the model
stops nowhere, is the model's inference (assumption log 5), and the next state of a halted engine is the spec's
decision D23. -/
def Obligations.EveryStateHasANextState : Prop :=
  (∀ (i : Instr) (s : State), ∃ t, exec i s = .next t) ∧ ∀ s : State, ∃ t, step s = .next t

/-- R97 (the spec's decision D23) and R13: a step changes nothing in a halted engine, and a run of it, which the model
bounds (assumption log 7), ends at once. -/
def Obligations.HaltedEngineNeverChanges : Prop :=
  ∀ s : State, s.status = .halted → step s = .next s ∧ (∀ k, runSteps k s = .next s) ∧ run s = .next s

/-- R87: a step at the end of the buffer halts and changes nothing else; nothing but such a step ends a run normally; a
program of `k` instructions is still running after `k` steps from reset and has halted after `k + 1`. -/
def Obligations.NormalEnd : Prop :=
  (∀ s : State, s.status = .running → s.pc = s.prog.length → step s = .next { s with status := .halted }) ∧
  (∀ s t : State, s.status = .running → s.fault = none → step s = .next t → t.EndedNormally →
    s.pc = s.prog.length) ∧
  (∀ (is : List Instr) (n : Nat) (tr : Bool), (∀ i ∈ is, i.wellFormed = true) →
    ∃ t u, runSteps is.length (State.resetWith (assemble is) n tr) = .next t ∧ t.status = .running ∧
      t.pc = (assemble is).length ∧
      runSteps (is.length + 1) (State.resetWith (assemble is) n tr) = .next u ∧ u.EndedNormally ∧
      u.pc = (assemble is).length)

/-- R88 and R127 (the spec's decisions D1 and D13): a step whose decode fails records the fault at `pc` and halts; nothing
else changes. -/
def Obligations.DecodeFailureRaisesItsFault : Prop :=
  ∀ (s : State), s.status = .running →
    (decode s.prog s.pc = .error .unknownOpcode →
      step s = .next { s with status := .halted, fault := some .unknownOpcode, faultPc := some s.pc }) ∧
    (decode s.prog s.pc = .error .truncatedInstruction →
      step s = .next { s with status := .halted, fault := some .truncatedInstruction, faultPc := some s.pc })

/-- R91: an instruction whose effect raises no fault advances `pc` to the offset `Decode` returned, which is 6, 9, 5 or 9
further by its opcode alone; the engine remains running, and if `pc` is now at the end the next step halts it. -/
def Obligations.PcAdvancesByTheWidth : Prop :=
  ∀ (s : State) (i : Instr) (n : Nat), s.status = .running → decode s.prog s.pc = .ok (some i, n) →
    (∀ b c d, i = .sqrt b c d → 0 ≤ s.mem.get b) →
    ∃ t, step s = .next t ∧ t.pc = n ∧
      n = s.pc + (match i.opcode with | .loadConst => 6 | .loadMem => 9 | .store => 5 | .sqrt => 9) ∧
      t.status = .running ∧ (t.pc = t.prog.length → step t = .next { t with status := .halted })

/-- R13: a running engine without a fault is halted by a step in exactly two cases, at the end of the buffer and by a
fault, and never by both. -/
def Obligations.StepHaltsInExactlyTwoCases : Prop :=
  ∀ s t : State, s.status = .running → s.fault = none → step s = .next t →
    (t.status = .halted ↔ s.pc = s.prog.length ∨ t.fault ≠ none) ∧ ¬ (s.pc = s.prog.length ∧ t.fault ≠ none)

/-- R126 and R128 (derived in the spec, on its decisions D1, D3 and D12): which fault a step raises, and that a faulting
step changes no cell, keeps `pc`, and changes the length and the trace only for `DomainError`. -/
def Obligations.FaultsArePrecise : Prop :=
  ∀ (s t : State) (k : EngineFault), s.status = .running → s.fault = none → step s = .next t → t.fault = some k →
    t.status = .halted ∧ t.faultPc = some s.pc ∧ t.pc = s.pc ∧ t.mem.cells = s.mem.cells ∧ s.SameConfig t ∧
    (k = .unknownOpcode ↔ decode s.prog s.pc = .error .unknownOpcode) ∧
    (k = .truncatedInstruction ↔ decode s.prog s.pc = .error .truncatedInstruction) ∧
    (k = .domainError ↔ ∃ b c d n, decode s.prog s.pc = .ok (some (.sqrt b c d), n) ∧ s.mem.get b < 0) ∧
    (k ≠ .domainError → t.mem.len = s.mem.len ∧ t.trace = s.trace) ∧
    (∀ b c d n, decode s.prog s.pc = .ok (some (.sqrt b c d), n) →
      t.mem.len = max s.mem.len (b + 1) ∧ t.trace = s.traceWith (.sqrt b c d))

/-- R90 and R19 (the spec's decision D13): a running engine with `TRACE_EN` set appends one event for a decoded instruction;
in every other case the trace is unchanged. -/
def Obligations.OneTraceEventPerDecodedInstruction : Prop :=
  ∀ s t : State, step s = .next t →
    (∀ i n, s.status = .running → s.traceEn = true → decode s.prog s.pc = .ok (some i, n) →
      t.trace = s.trace ++ [⟨s.pc, i⟩]) ∧
    (s.status = .halted ∨ s.traceEn = false ∨ (∀ i n, decode s.prog s.pc ≠ .ok (some i, n)) → t.trace = s.trace)

/-- R20, R31 and R44: no step writes the program buffer or the configuration. -/
def Obligations.StepNeverWritesProgramOrConfiguration : Prop :=
  ∀ s t : State, step s = .next t → s.SameConfig t

/-- R17 and R33: a step never shrinks Memory. -/
def Obligations.MemoryNeverShrinks : Prop :=
  ∀ s t : State, step s = .next t → s.mem.len ≤ t.mem.len

/-- R36 (derived in the spec): the length of Memory influences nothing but itself: from two states that differ only in the
length, a step leads to two states that differ at most in the length. -/
def Obligations.LengthInfluencesNothingElse : Prop :=
  ∀ (s t : State) (n : Nat), step s = .next t →
    ∃ m, step { s with mem := { s.mem with len := n } } = .next { t with mem := { t.mem with len := m } }

/-- R19 and R90: neither `TRACE_EN` nor the trace influences any other state. -/
def Obligations.TraceInfluencesNothingElse : Prop :=
  ∀ (s t : State) (en : Bool) (tr : List TraceEvent), step s = .next t →
    ∃ tr', step { s with traceEn := en, trace := tr } = .next { t with traceEn := en, trace := tr' }

/-! ### Invariants -/

/-- The form in which the model holds Memory (assumption log 1): every step keeps it canonical. -/
def Obligations.StepKeepsMemoryCanonical : Prop :=
  ∀ s t : State, s.mem.wf → step s = .next t → t.mem.wf

/-- R12 (derived in the spec), R14 and R15 (the spec's decision D1): every step keeps `pc` in the program or at its end and
the fault record consistent. That a state without a fault has no fault offset is the model's choice (assumption log 2). -/
def Obligations.StepKeepsPcAndFaultRecord : Prop :=
  ∀ s t : State, s.PcInProgram → s.FaultRecordOk → step s = .next t → t.PcInProgram ∧ t.FaultRecordOk

/-- R18 (derived in the spec): every step keeps every cell in `[0, 2^24 - 1]`, and from such a state SQRT never raises
`DomainError`. -/
def Obligations.StepKeepsCellsInRange : Prop :=
  ∀ s t : State, s.mem.InRange → step s = .next t →
    t.mem.InRange ∧ (s.fault ≠ some .domainError → t.fault ≠ some .domainError)

/-- R16 and R33: every step keeps every cell at or past the length at 0. -/
def Obligations.StepKeepsCellsPastLengthZero : Prop :=
  ∀ s t : State, s.mem.Bounded → step s = .next t → t.mem.Bounded

/-- R33 and R40 (derived in the spec): no step takes Memory past the length that holds the largest address, `2^25 - 2`
cells, or past `MEM_INIT_LEN` where that is greater. -/
def Obligations.MemoryLengthStaysWithinTheAddressableRange : Prop :=
  ∀ s t : State, s.mem.len ≤ max s.memInitLen (2 ^ 25 - 2) → step s = .next t →
    t.mem.len ≤ max t.memInitLen (2 ^ 25 - 2)

/-- R26: the state at reset release meets the invariants, under every configuration of the host. The canonical form of Memory
and the absent fault offset among them are the model's choices (assumption log 1 and 2). -/
def Obligations.ResetMeetsTheInvariants : Prop :=
  (∀ (prog : List Byte) (n : Nat) (tr : Bool), (State.resetWith prog n tr).Inv) ∧ State.reset.Inv

/-- R12, R18, R124 (derived in the spec): whatever the program and the configuration, every state a run from reset comes
through meets the invariants, and `DomainError` is never raised. The canonical form of Memory and the absent fault offset
among the invariants are the model's choices (assumption log 1 and 2). -/
def Obligations.EveryRunFromResetMeetsTheInvariants : Prop :=
  ∀ (prog : List Byte) (n : Nat) (tr : Bool) (k : Nat) (t : State),
    runSteps k (State.resetWith prog n tr) = .next t → t.Inv ∧ t.fault ≠ some .domainError

/-! ### Runs -/

/-- R93 and R94 (derived in the spec): every run ends, within `(L - pc) div 5 + 1` steps, normally at the end of the buffer
or with a fault recorded at `pc` before it (the fault record is the spec's decision D1). That the step bound of the
model's `run` stops no run early is the model's inference (assumption log 7). -/
def Obligations.EveryRunEnds : Prop :=
  ∀ s : State, s.PcInProgram → s.FaultRecordOk → ∃ t, run s = .next t ∧
    runSteps ((s.prog.length - s.pc) / 5 + 1) s = .next t ∧ t.status = .halted ∧
    ((t.fault = none ∧ t.pc = t.prog.length) ∨ (t.fault ≠ none ∧ t.faultPc = some t.pc ∧ t.pc < t.prog.length))

/-- R43, R95 and R143: from a state with cells in range, the instructions that stand one after another at `pc` take effect
one at a time in that order, and leave the engine running behind the last of them. -/
def Obligations.InstructionsExecuteInBufferOrder : Prop :=
  ∀ (is : List Instr) (before after : List Byte) (s : State), (∀ i ∈ is, i.wellFormed = true) →
    s.prog = before ++ assemble is ++ after → s.pc = before.length → s.status = .running → s.mem.InRange →
    ∃ t, runSteps is.length s = .next t ∧ execAll is s = .next t ∧ t.status = .running ∧ t.fault = s.fault ∧
      t.pc = before.length + (assemble is).length

/-! ### Reset and the host -/

/-- R26 and R140 (the spec's decisions D1, D10, D13 and D20): asserting reset leaves the program buffer and the configuration
and gives every other piece of state its reset value. The absent fault offset is the model's choice (assumption log 2). -/
def Obligations.ResetLeavesTheSpecValues : Prop :=
  (∀ s : State, s.SameConfig s.assertReset ∧ s.assertReset.pc = 0 ∧ s.assertReset.status = .running ∧
    s.assertReset.fault = none ∧ s.assertReset.faultPc = none ∧ (∀ a, s.assertReset.mem.get a = 0) ∧
    s.assertReset.mem.len = s.memInitLen ∧ s.assertReset.trace = []) ∧
  State.reset.assertReset = State.reset

/-- R141 (derived in the spec): the first step after reset halts at once when the program is empty, and otherwise decodes
at offset 0. What a failed decode leaves there (the fault recorded at offset 0, Memory kept, no trace event) is the
spec's decisions D1 and D13. -/
def Obligations.FirstStepDecodesOffsetZero : Prop :=
  ∀ (prog : List Byte) (n : Nat) (tr : Bool),
    let s := State.resetWith prog n tr
    (prog = [] → step s = .next { s with status := .halted }) ∧
    (∀ i m, decode prog 0 = .ok (some i, m) → step s = exec i s) ∧
    (∀ e, decode prog 0 = .error e →
      ∃ t, step s = .next t ∧ t.status = .halted ∧ t.fault = some (engineFaultOf e) ∧ t.faultPc = some 0 ∧
        t.mem = s.mem ∧ t.trace = [])

/-- The model's own placing of an opcode-table word (assumption log 4): when the word decodes to an instruction, the next
step runs that instruction, in every state. -/
def Obligations.PlacedWordRunsNext : Prop :=
  ∀ (s : State) (nbits w : Nat) (i : Instr), decodeTableWord nbits w = some i →
    step (s.withFetchWord nbits w) = exec i (s.withFetchWord nbits w) ∧ (s.withFetchWord nbits w).pc = s.pc ∧
    (s.withFetchWord nbits w).mem = s.mem
end

