-- ==== Sys2Proof/Laws/Codec.lean ====
section
/-! SUPPORT. The byte-string functions of the codec, the layout table's widths, and what `decode` can answer. -/

namespace Sys2Proof

@[simp] theorem leBytes_length (n v : Nat) : (leBytes n v).length = n := by
  induction n generalizing v with
  | zero => rfl
  | succ n ih => simp [leBytes, ih]

/-- Reading back the `n` bytes of a value gives the value modulo `256 ^ n` (R7). -/
theorem leValue_leBytes_mod (n v : Nat) : leValue (leBytes n v) = v % 256 ^ n := by
  induction n generalizing v with
  | zero => simp [leBytes, leValue, Nat.mod_one]
  | succ n ih =>
    rw [leBytes, leValue, ih, BitVec.toNat_ofNat, pow_succ' 256]
    exact Nat.mod_mul.symm

/-- A value that fits `n` bytes is read back unchanged (R7, R79). -/
theorem leValue_leBytes {n v : Nat} (h : v < 256 ^ n) : leValue (leBytes n v) = v := by
  rw [leValue_leBytes_mod, Nat.mod_eq_of_lt h]

/-- The value of a byte string fits as many bytes as the string has (R53). -/
theorem leValue_lt (l : List Byte) : leValue l < 256 ^ l.length := by
  induction l with
  | nil => simp [leValue]
  | cons x rest ih =>
    have hx := x.isLt
    simp only [leValue, List.length_cons, pow_succ']
    omega

/-- The bytes of the value of a byte string are that byte string (R7, R80). -/
theorem leBytes_leValue (l : List Byte) : leBytes l.length (leValue l) = l := by
  induction l with
  | nil => rfl
  | cons x rest ih =>
    have hx : x.toNat < 256 := x.isLt
    have hdiv : (x.toNat + 256 * leValue rest) / 256 = leValue rest := by omega
    simp only [List.length_cons, leBytes, leValue, hdiv, ih]
    congr 1
    apply BitVec.eq_of_toNat_eq
    simp only [BitVec.toNat_ofNat]
    omega

@[simp] theorem width_loadConst (b c : Nat) : (Instr.loadConst b c).width = 6 := rfl
@[simp] theorem width_loadMem (b c d : Nat) : (Instr.loadMem b c d).width = 9 := rfl
@[simp] theorem width_store (b c : Nat) : (Instr.store b c).width = 5 := rfl
@[simp] theorem width_sqrt (b c d : Nat) : (Instr.sqrt b c d).width = 9 := rfl

@[simp] theorem opcode_instr (op : Opcode) (b c d : Nat) : (op.instr b c d).opcode = op := by
  cases op <;> rfl

/-- Every instruction is 5 to 9 bytes long (R54). -/
theorem width_bounds (i : Instr) : 5 ≤ i.width ∧ i.width ≤ 9 := by
  cases i <;> simp

/-- Only the four integers of the table select an opcode, and each its own (R55). -/
theorem ofInt_eq_some {a : Int} {op : Opcode} : Opcode.ofInt a = some op ↔ a = op.code := by
  cases op <;> simp only [Opcode.ofInt, Opcode.code] <;> split_ifs <;> simp_all

@[simp] theorem ofByte_code (op : Opcode) : Opcode.ofByte (BitVec.ofNat 8 op.code) = some op := by
  cases op <;> decide

/-- The end of the buffer (R75). -/
theorem decode_end (buf : List Byte) : decode buf buf.length = .ok (none, buf.length) := by
  simp [decode]

/-- An offset past the end (R78). -/
theorem decode_past {buf : List Byte} {off : Nat} (h : buf.length < off) :
    decode buf off = .error .truncatedInstruction := by
  simp [decode, h, Nat.ne_of_gt h]

/-- A byte that is no opcode (R77). -/
theorem decode_unknown {buf : List Byte} {off : Nat} (h : off < buf.length)
    (ho : Opcode.ofByte (byteAt buf off) = none) : decode buf off = .error .unknownOpcode := by
  simp [decode, Nat.ne_of_lt h, Nat.not_lt_of_lt h, ho]

/-- An opcode with too few bytes after it (R76). -/
theorem decode_short {buf : List Byte} {off : Nat} {op : Opcode} (h : off < buf.length)
    (ho : Opcode.ofByte (byteAt buf off) = some op) (hw : buf.length - off < op.layout.width) :
    decode buf off = .error .truncatedInstruction := by
  simp [decode, Nat.ne_of_lt h, Nat.not_lt_of_lt h, ho, hw]

/-- An opcode with all its bytes: the fields are read at their places (R52, R74). -/
theorem decode_instr {buf : List Byte} {off : Nat} {op : Opcode} (h : off < buf.length)
    (ho : Opcode.ofByte (byteAt buf off) = some op) (hw : op.layout.width ≤ buf.length - off) :
    decode buf off =
      .ok (some (op.instr (fetchField buf (off + 1) op.layout.bWidth)
          (fetchField buf (off + 1 + op.layout.bWidth) op.layout.cWidth)
          (fetchField buf (off + 1 + op.layout.bWidth + op.layout.cWidth) (op.layout.dWidth.getD 0))),
        off + op.layout.width) := by
  simp [decode, Nat.ne_of_lt h, Nat.not_lt_of_lt h, ho, Nat.not_lt_of_le hw]

/-- What `decode` can answer, and when (R74, R81). -/
theorem decode_cases (buf : List Byte) (off : Nat) :
    (off = buf.length ∧ decode buf off = .ok (none, off)) ∨
    (buf.length < off ∧ decode buf off = .error .truncatedInstruction) ∨
    (off < buf.length ∧ Opcode.ofByte (byteAt buf off) = none ∧ decode buf off = .error .unknownOpcode) ∨
    (∃ op, off < buf.length ∧ Opcode.ofByte (byteAt buf off) = some op ∧ buf.length - off < op.layout.width ∧
      decode buf off = .error .truncatedInstruction) ∨
    (∃ op, off < buf.length ∧ Opcode.ofByte (byteAt buf off) = some op ∧ op.layout.width ≤ buf.length - off ∧
      decode buf off =
        .ok (some (op.instr (fetchField buf (off + 1) op.layout.bWidth)
            (fetchField buf (off + 1 + op.layout.bWidth) op.layout.cWidth)
            (fetchField buf (off + 1 + op.layout.bWidth + op.layout.cWidth) (op.layout.dWidth.getD 0))),
          off + op.layout.width)) := by
  rcases lt_trichotomy off buf.length with h | h | h
  · rcases ho : Opcode.ofByte (byteAt buf off) with _ | op
    · exact .inr (.inr (.inl ⟨h, rfl, decode_unknown h ho⟩))
    · by_cases hw : buf.length - off < op.layout.width
      · exact .inr (.inr (.inr (.inl ⟨op, h, rfl, hw, decode_short h ho hw⟩)))
      · exact .inr (.inr (.inr (.inr ⟨op, h, rfl, not_lt.mp hw, decode_instr h ho (not_lt.mp hw)⟩)))
  · exact .inl ⟨h, h ▸ decode_end buf⟩
  · exact .inr (.inl ⟨h, decode_past h⟩)

/-- When `decode` answers an instruction, its bytes lie in the buffer and the next offset is its width further (R76, R91). -/
theorem decode_ok_some {buf : List Byte} {off n : Nat} {i : Instr} (h : decode buf off = .ok (some i, n)) :
    off + i.width ≤ buf.length ∧ n = off + i.width := by
  rcases decode_cases buf off with ⟨-, h'⟩ | ⟨-, h'⟩ | ⟨-, -, h'⟩ | ⟨op, -, -, -, h'⟩ | ⟨op, h1, -, hw, h'⟩
  all_goals rw [h'] at h
  all_goals try simp at h
  obtain ⟨rfl, rfl⟩ := h
  have hle : off + op.layout.width ≤ buf.length := by omega
  simpa [Instr.width] using hle

/-- A fetched field fits its width (R53). -/
theorem fetchField_lt (buf : List Byte) (off n : Nat) : fetchField buf off n < 256 ^ n :=
  lt_of_lt_of_le (leValue_lt _) (Nat.pow_le_pow_right (by norm_num) (by simp))

end Sys2Proof
end

