-- ==== Sys2Proof/Laws/Memory.lean ====
section
/-! SUPPORT. What the Memory operations do: the value every cell holds after them, the length, and that they keep the
canonical form. -/

namespace Sys2Proof.Machine

theorem lookupCell_filter_self (cells : List Cell) (a : Nat) :
    lookupCell (cells.filter (fun c => c.1 != a)) a = 0 := by
  induction cells with
  | nil => rfl
  | cons x rest ih =>
    obtain ⟨k, v⟩ := x
    by_cases h : k = a <;> simp [h, lookupCell, ih]

theorem lookupCell_filter_other (cells : List Cell) {a b : Nat} (h : b ≠ a) :
    lookupCell (cells.filter (fun c => c.1 != a)) b = lookupCell cells b := by
  induction cells with
  | nil => rfl
  | cons x rest ih =>
    obtain ⟨k, v⟩ := x
    by_cases hk : k = a
    · subst hk; simp [lookupCell, ih, Ne.symm h]
    · simp [hk, lookupCell, ih]

theorem lookupCell_insertCell_self (cells : List Cell) (a : Nat) (v : Int) (h : ∀ c ∈ cells, c.1 ≠ a) :
    lookupCell (insertCell a v cells) a = v := by
  induction cells with
  | nil => simp [insertCell, lookupCell]
  | cons x rest ih =>
    obtain ⟨k, w⟩ := x
    by_cases hk : a < k
    · simp [insertCell, hk, lookupCell]
    · have h1 : k ≠ a := h (k, w) (by simp)
      have h2 := ih (fun c hc => h c (by simp [hc]))
      simp [insertCell, hk, lookupCell, h1, h2]

theorem lookupCell_insertCell_other (cells : List Cell) {a b : Nat} (v : Int) (h : b ≠ a) :
    lookupCell (insertCell a v cells) b = lookupCell cells b := by
  induction cells with
  | nil => simp [insertCell, lookupCell, Ne.symm h]
  | cons x rest ih =>
    obtain ⟨k, w⟩ := x
    by_cases hk : a < k
    · simp [insertCell, hk, lookupCell, Ne.symm h]
    · simp [insertCell, hk, lookupCell, ih]

/-- Replacing the value of one address changes the value of that address and of no other. -/
theorem lookupCell_setCell (cells : List Cell) (a b : Nat) (v : Int) :
    lookupCell (setCell cells a v) b = if b = a then v else lookupCell cells b := by
  by_cases hv : v = 0
  · by_cases hb : b = a
    · subst hb; simp [setCell, hv, lookupCell_filter_self]
    · simp [setCell, hv, hb, lookupCell_filter_other]
  · by_cases hb : b = a
    · subst hb
      simp only [setCell, hv, if_false, if_true]
      exact lookupCell_insertCell_self _ _ _ (by simp)
    · simp [setCell, hv, hb, lookupCell_insertCell_other, lookupCell_filter_other]

theorem mem_insertCell {a : Nat} {v : Int} {cells : List Cell} {c : Cell} :
    c ∈ insertCell a v cells ↔ c = (a, v) ∨ c ∈ cells := by
  induction cells with
  | nil => simp [insertCell]
  | cons x rest ih =>
    by_cases hk : a < x.1
    · simp [insertCell, hk]
    · simp [insertCell, hk, ih, or_left_comm]

theorem insertCell_rising {a : Nat} {v : Int} {cells : List Cell}
    (hr : cells.Pairwise (fun x y => x.1 < y.1)) (hn : ∀ c ∈ cells, c.1 ≠ a) :
    (insertCell a v cells).Pairwise (fun x y => x.1 < y.1) := by
  induction cells with
  | nil => simp [insertCell]
  | cons x rest ih =>
    obtain ⟨hx, hrest⟩ := List.pairwise_cons.mp hr
    by_cases hk : a < x.1
    · simp only [insertCell, hk, if_true]
      refine List.pairwise_cons.mpr ⟨fun c hc => ?_, hr⟩
      rcases List.mem_cons.mp hc with rfl | hc
      · exact hk
      · exact lt_trans hk (hx c hc)
    · simp only [insertCell, hk, if_false]
      have hxa : x.1 < a := lt_of_le_of_ne (not_lt.mp hk) (hn x (by simp))
      refine List.pairwise_cons.mpr ⟨fun c hc => ?_, ih hrest (fun c hc => hn c (by simp [hc]))⟩
      rcases mem_insertCell.mp hc with rfl | hc
      · exact hxa
      · exact hx c hc

/-- Growth changes no cell (R33). -/
@[simp] theorem Memory.get_grow (m : Memory) (a b : Nat) : (m.grow a).get b = m.get b := rfl

/-- Growth raises the length to hold the address (R33). -/
@[simp] theorem Memory.len_grow (m : Memory) (a : Nat) : (m.grow a).len = max m.len (a + 1) := by
  simp only [Memory.grow]; split <;> omega

@[simp] theorem Memory.cells_grow (m : Memory) (a : Nat) : (m.grow a).cells = m.cells := rfl

/-- `MemRead` returns the value of the cell (R34). -/
@[simp] theorem Memory.read_value (m : Memory) (a : Nat) : (m.read a).1 = m.get a := rfl

/-- `MemRead` does nothing to Memory but grow it (R34). -/
@[simp] theorem Memory.read_mem (m : Memory) (a : Nat) : (m.read a).2 = m.grow a := rfl

/-- After `MemWrite` the cell holds the value and every other cell what it held (R35). -/
@[simp] theorem Memory.get_write (m : Memory) (a b : Nat) (v : Int) :
    (m.write a v).get b = if b = a then v else m.get b :=
  lookupCell_setCell m.cells a b v

/-- `MemWrite` grows Memory to hold the address (R35). -/
@[simp] theorem Memory.len_write (m : Memory) (a : Nat) (v : Int) : (m.write a v).len = max m.len (a + 1) :=
  Memory.len_grow m a

/-- One copied cell: the destination holds what the source held (R103, R105). -/
@[simp] theorem get_copyCell (dst src : Nat) (m : Memory) (b : Nat) :
    (copyCell dst src m).get b = if b = dst then m.get src else m.get b := by
  simp [copyCell]

@[simp] theorem len_copyCell (dst src : Nat) (m : Memory) :
    (copyCell dst src m).len = max (max m.len (src + 1)) (dst + 1) := by
  simp [copyCell]

@[simp] theorem copyCells_zero (dst src : Nat) (m : Memory) : copyCells dst src 0 m = m := rfl

/-- The last element is copied after all the elements before it (R103). -/
theorem copyCells_succ (dst src n : Nat) (m : Memory) :
    copyCells dst src (n + 1) m = copyCell (dst + n) (src + n) (copyCells dst src n m) := rfl

theorem Memory.wf_grow {m : Memory} (a : Nat) (h : m.wf) : (m.grow a).wf := h

theorem Memory.wf_read {m : Memory} (a : Nat) (h : m.wf) : (m.read a).2.wf := h

/-- `MemWrite` keeps the canonical form. -/
theorem Memory.wf_write {m : Memory} (a : Nat) (v : Int) (h : m.wf) : (m.write a v).wf := by
  obtain ⟨hr, hz⟩ := h
  have hr' := hr.filter (fun c => c.1 != a)
  have hn : ∀ c ∈ m.cells.filter (fun c => c.1 != a), c.1 ≠ a := by simp
  by_cases hv : v = 0
  · simp only [Memory.wf, Memory.write, Memory.cells_grow, setCell, hv, if_true]
    exact ⟨hr', fun c hc => hz c (List.mem_of_mem_filter hc)⟩
  · simp only [Memory.wf, Memory.write, Memory.cells_grow, setCell, hv, if_false]
    refine ⟨insertCell_rising hr' hn, fun c hc => ?_⟩
    rcases mem_insertCell.mp hc with rfl | hc
    · exact hv
    · exact hz c (List.mem_of_mem_filter hc)

theorem wf_copyCell {m : Memory} (dst src : Nat) (h : m.wf) : (copyCell dst src m).wf :=
  Memory.wf_write _ _ (Memory.wf_read src h)

theorem wf_copyCells {m : Memory} (dst src n : Nat) (h : m.wf) : (copyCells dst src n m).wf := by
  induction n with
  | zero => exact h
  | succ n ih => exact wf_copyCell _ _ ih

/-- Memory after reset has the canonical form, whatever its initial length. -/
theorem wf_resetWith (p : List Byte) (n : Nat) (t : Bool) : (State.resetWith p n t).mem.wf := by
  simp [State.resetWith, Memory.wf]

/-- Memory of `State.reset` has the canonical form. -/
theorem wf_reset : State.reset.mem.wf := wf_resetWith _ _ _

end Sys2Proof.Machine
end

