-- ==== Sys2Proof/Laws/State.lean ====
section
/-! SUPPORT. What each named update of the state does to each field, so that no later proof unfolds a record update. -/

namespace Sys2Proof.Machine

@[simp] theorem State.emit_prog (s : State) (i : Instr) : (s.emit i).prog = s.prog := rfl
@[simp] theorem State.emit_memInitLen (s : State) (i : Instr) : (s.emit i).memInitLen = s.memInitLen := rfl
@[simp] theorem State.emit_traceEn (s : State) (i : Instr) : (s.emit i).traceEn = s.traceEn := rfl
@[simp] theorem State.emit_pc (s : State) (i : Instr) : (s.emit i).pc = s.pc := rfl
@[simp] theorem State.emit_status (s : State) (i : Instr) : (s.emit i).status = s.status := rfl
@[simp] theorem State.emit_fault (s : State) (i : Instr) : (s.emit i).fault = s.fault := rfl
@[simp] theorem State.emit_faultPc (s : State) (i : Instr) : (s.emit i).faultPc = s.faultPc := rfl
@[simp] theorem State.emit_mem (s : State) (i : Instr) : (s.emit i).mem = s.mem := rfl
@[simp] theorem State.emit_trace (s : State) (i : Instr) : (s.emit i).trace = if s.traceEn then s.trace ++ [⟨s.pc, i⟩] else s.trace := rfl

@[simp] theorem State.withMem_prog (s : State) (m : Memory) : (s.withMem m).prog = s.prog := rfl
@[simp] theorem State.withMem_memInitLen (s : State) (m : Memory) : (s.withMem m).memInitLen = s.memInitLen := rfl
@[simp] theorem State.withMem_traceEn (s : State) (m : Memory) : (s.withMem m).traceEn = s.traceEn := rfl
@[simp] theorem State.withMem_pc (s : State) (m : Memory) : (s.withMem m).pc = s.pc := rfl
@[simp] theorem State.withMem_status (s : State) (m : Memory) : (s.withMem m).status = s.status := rfl
@[simp] theorem State.withMem_fault (s : State) (m : Memory) : (s.withMem m).fault = s.fault := rfl
@[simp] theorem State.withMem_faultPc (s : State) (m : Memory) : (s.withMem m).faultPc = s.faultPc := rfl
@[simp] theorem State.withMem_mem (s : State) (m : Memory) : (s.withMem m).mem = m := rfl
@[simp] theorem State.withMem_trace (s : State) (m : Memory) : (s.withMem m).trace = s.trace := rfl

@[simp] theorem State.advance_prog (s : State) (n : Nat) : (s.advance n).prog = s.prog := rfl
@[simp] theorem State.advance_memInitLen (s : State) (n : Nat) : (s.advance n).memInitLen = s.memInitLen := rfl
@[simp] theorem State.advance_traceEn (s : State) (n : Nat) : (s.advance n).traceEn = s.traceEn := rfl
@[simp] theorem State.advance_pc (s : State) (n : Nat) : (s.advance n).pc = s.pc + n := rfl
@[simp] theorem State.advance_status (s : State) (n : Nat) : (s.advance n).status = s.status := rfl
@[simp] theorem State.advance_fault (s : State) (n : Nat) : (s.advance n).fault = s.fault := rfl
@[simp] theorem State.advance_faultPc (s : State) (n : Nat) : (s.advance n).faultPc = s.faultPc := rfl
@[simp] theorem State.advance_mem (s : State) (n : Nat) : (s.advance n).mem = s.mem := rfl
@[simp] theorem State.advance_trace (s : State) (n : Nat) : (s.advance n).trace = s.trace := rfl

@[simp] theorem State.haltNormally_prog (s : State) : (s.haltNormally).prog = s.prog := rfl
@[simp] theorem State.haltNormally_memInitLen (s : State) : (s.haltNormally).memInitLen = s.memInitLen := rfl
@[simp] theorem State.haltNormally_traceEn (s : State) : (s.haltNormally).traceEn = s.traceEn := rfl
@[simp] theorem State.haltNormally_pc (s : State) : (s.haltNormally).pc = s.pc := rfl
@[simp] theorem State.haltNormally_status (s : State) : (s.haltNormally).status = .halted := rfl
@[simp] theorem State.haltNormally_fault (s : State) : (s.haltNormally).fault = s.fault := rfl
@[simp] theorem State.haltNormally_faultPc (s : State) : (s.haltNormally).faultPc = s.faultPc := rfl
@[simp] theorem State.haltNormally_mem (s : State) : (s.haltNormally).mem = s.mem := rfl
@[simp] theorem State.haltNormally_trace (s : State) : (s.haltNormally).trace = s.trace := rfl

@[simp] theorem State.raise_prog (s : State) (k : EngineFault) (off : Nat) : (s.raise k off).prog = s.prog := rfl
@[simp] theorem State.raise_memInitLen (s : State) (k : EngineFault) (off : Nat) : (s.raise k off).memInitLen = s.memInitLen := rfl
@[simp] theorem State.raise_traceEn (s : State) (k : EngineFault) (off : Nat) : (s.raise k off).traceEn = s.traceEn := rfl
@[simp] theorem State.raise_pc (s : State) (k : EngineFault) (off : Nat) : (s.raise k off).pc = s.pc := rfl
@[simp] theorem State.raise_status (s : State) (k : EngineFault) (off : Nat) : (s.raise k off).status = .halted := rfl
@[simp] theorem State.raise_fault (s : State) (k : EngineFault) (off : Nat) : (s.raise k off).fault = some k := rfl
@[simp] theorem State.raise_faultPc (s : State) (k : EngineFault) (off : Nat) : (s.raise k off).faultPc = some off := rfl
@[simp] theorem State.raise_mem (s : State) (k : EngineFault) (off : Nat) : (s.raise k off).mem = s.mem := rfl
@[simp] theorem State.raise_trace (s : State) (k : EngineFault) (off : Nat) : (s.raise k off).trace = s.trace := rfl

@[simp] theorem State.retire_prog (s : State) (i : Instr) (m : Memory) : (s.retire i m).prog = s.prog := rfl
@[simp] theorem State.retire_memInitLen (s : State) (i : Instr) (m : Memory) : (s.retire i m).memInitLen = s.memInitLen := rfl
@[simp] theorem State.retire_traceEn (s : State) (i : Instr) (m : Memory) : (s.retire i m).traceEn = s.traceEn := rfl
@[simp] theorem State.retire_pc (s : State) (i : Instr) (m : Memory) : (s.retire i m).pc = s.pc + i.width := rfl
@[simp] theorem State.retire_status (s : State) (i : Instr) (m : Memory) : (s.retire i m).status = s.status := rfl
@[simp] theorem State.retire_fault (s : State) (i : Instr) (m : Memory) : (s.retire i m).fault = s.fault := rfl
@[simp] theorem State.retire_faultPc (s : State) (i : Instr) (m : Memory) : (s.retire i m).faultPc = s.faultPc := rfl
@[simp] theorem State.retire_mem (s : State) (i : Instr) (m : Memory) : (s.retire i m).mem = m := rfl
@[simp] theorem State.retire_trace (s : State) (i : Instr) (m : Memory) : (s.retire i m).trace = if s.traceEn then s.trace ++ [⟨s.pc, i⟩] else s.trace := rfl

@[simp] theorem State.trap_prog (s : State) (i : Instr) (k : EngineFault) (m : Memory) : (s.trap i k m).prog = s.prog := rfl
@[simp] theorem State.trap_memInitLen (s : State) (i : Instr) (k : EngineFault) (m : Memory) : (s.trap i k m).memInitLen = s.memInitLen := rfl
@[simp] theorem State.trap_traceEn (s : State) (i : Instr) (k : EngineFault) (m : Memory) : (s.trap i k m).traceEn = s.traceEn := rfl
@[simp] theorem State.trap_pc (s : State) (i : Instr) (k : EngineFault) (m : Memory) : (s.trap i k m).pc = s.pc := rfl
@[simp] theorem State.trap_status (s : State) (i : Instr) (k : EngineFault) (m : Memory) : (s.trap i k m).status = .halted := rfl
@[simp] theorem State.trap_fault (s : State) (i : Instr) (k : EngineFault) (m : Memory) : (s.trap i k m).fault = some k := rfl
@[simp] theorem State.trap_faultPc (s : State) (i : Instr) (k : EngineFault) (m : Memory) : (s.trap i k m).faultPc = some s.pc := rfl
@[simp] theorem State.trap_mem (s : State) (i : Instr) (k : EngineFault) (m : Memory) : (s.trap i k m).mem = m := rfl
@[simp] theorem State.trap_trace (s : State) (i : Instr) (k : EngineFault) (m : Memory) : (s.trap i k m).trace = if s.traceEn then s.trace ++ [⟨s.pc, i⟩] else s.trace := rfl

@[simp] theorem State.placeAtPc_prog (s : State) (bytes : List Byte) : (s.placeAtPc bytes).prog = overlay s.prog s.pc bytes := rfl
@[simp] theorem State.placeAtPc_memInitLen (s : State) (bytes : List Byte) : (s.placeAtPc bytes).memInitLen = s.memInitLen := rfl
@[simp] theorem State.placeAtPc_traceEn (s : State) (bytes : List Byte) : (s.placeAtPc bytes).traceEn = s.traceEn := rfl
@[simp] theorem State.placeAtPc_pc (s : State) (bytes : List Byte) : (s.placeAtPc bytes).pc = s.pc := rfl
@[simp] theorem State.placeAtPc_status (s : State) (bytes : List Byte) : (s.placeAtPc bytes).status = .running := rfl
@[simp] theorem State.placeAtPc_fault (s : State) (bytes : List Byte) : (s.placeAtPc bytes).fault = s.fault := rfl
@[simp] theorem State.placeAtPc_faultPc (s : State) (bytes : List Byte) : (s.placeAtPc bytes).faultPc = s.faultPc := rfl
@[simp] theorem State.placeAtPc_mem (s : State) (bytes : List Byte) : (s.placeAtPc bytes).mem = s.mem := rfl
@[simp] theorem State.placeAtPc_trace (s : State) (bytes : List Byte) : (s.placeAtPc bytes).trace = s.trace := rfl

@[simp] theorem State.assertReset_prog (s : State) : (s.assertReset).prog = s.prog := rfl
@[simp] theorem State.assertReset_memInitLen (s : State) : (s.assertReset).memInitLen = s.memInitLen := rfl
@[simp] theorem State.assertReset_traceEn (s : State) : (s.assertReset).traceEn = s.traceEn := rfl
@[simp] theorem State.assertReset_pc (s : State) : (s.assertReset).pc = 0 := rfl
@[simp] theorem State.assertReset_status (s : State) : (s.assertReset).status = .running := rfl
@[simp] theorem State.assertReset_fault (s : State) : (s.assertReset).fault = none := rfl
@[simp] theorem State.assertReset_faultPc (s : State) : (s.assertReset).faultPc = none := rfl
@[simp] theorem State.assertReset_mem (s : State) : (s.assertReset).mem = ⟨[], s.memInitLen⟩ := rfl
@[simp] theorem State.assertReset_trace (s : State) : (s.assertReset).trace = [] := rfl

@[simp] theorem State.resetWith_prog (p : List Byte) (n : Nat) (t : Bool) : (State.resetWith p n t).prog = p := rfl
@[simp] theorem State.resetWith_memInitLen (p : List Byte) (n : Nat) (t : Bool) : (State.resetWith p n t).memInitLen = n := rfl
@[simp] theorem State.resetWith_traceEn (p : List Byte) (n : Nat) (t : Bool) : (State.resetWith p n t).traceEn = t := rfl
@[simp] theorem State.resetWith_pc (p : List Byte) (n : Nat) (t : Bool) : (State.resetWith p n t).pc = 0 := rfl
@[simp] theorem State.resetWith_status (p : List Byte) (n : Nat) (t : Bool) : (State.resetWith p n t).status = .running := rfl
@[simp] theorem State.resetWith_fault (p : List Byte) (n : Nat) (t : Bool) : (State.resetWith p n t).fault = none := rfl
@[simp] theorem State.resetWith_faultPc (p : List Byte) (n : Nat) (t : Bool) : (State.resetWith p n t).faultPc = none := rfl
@[simp] theorem State.resetWith_mem (p : List Byte) (n : Nat) (t : Bool) : (State.resetWith p n t).mem = ⟨[], n⟩ := rfl
@[simp] theorem State.resetWith_trace (p : List Byte) (n : Nat) (t : Bool) : (State.resetWith p n t).trace = [] := rfl

/-- `peek` reads Memory and nothing else (R25). -/
@[simp] theorem State.peek_eq (s : State) (a : Nat) : s.peek a = s.mem.get a := rfl

/-- Two states with equal fields are equal. -/
theorem State.ext_fields (s t : State) (h1 : s.prog = t.prog) (h2 : s.memInitLen = t.memInitLen)
    (h3 : s.traceEn = t.traceEn) (h4 : s.pc = t.pc) (h5 : s.status = t.status) (h6 : s.fault = t.fault)
    (h7 : s.faultPc = t.faultPc) (h8 : s.mem = t.mem) (h9 : s.trace = t.trace) : s = t := by
  cases s; cases t; simp_all

end Sys2Proof.Machine
end

