-- ==== Sys2Proof/Laws/Engine.lean ====
section
/-! SUPPORT. What each meaning, each branch of a step and the laying of bytes at `pc` answer. -/

namespace Sys2Proof.Machine

/-- LOAD_CONST completes in every state (R101). -/
theorem execLoadConst_eq (b c : Nat) (s : State) :
    execLoadConst b c s = .next (s.retire (.loadConst b c) (s.mem.write b (c : Int))) := rfl

/-- LOAD_MEM completes in every state (R103). -/
theorem execLoadMem_eq (b c d : Nat) (s : State) :
    execLoadMem b c d s = .next (s.retire (.loadMem b c d) (copyCells b d c s.mem)) := rfl

/-- STORE completes in every state (R105). -/
theorem execStore_eq (b c : Nat) (s : State) :
    execStore b c s = .next (s.retire (.store b c) (copyCell c b s.mem)) := rfl

/-- SQRT completes where the source cell is not negative (R111). -/
theorem execSqrt_of_nonneg {b : Nat} (c d : Nat) {s : State} (h : 0 ≤ s.mem.get b) :
    execSqrt b c d s =
      .next (s.retire (.sqrt b c d) ((s.mem.grow b).write d (isqrt (s.mem.get b).toNat : Int))) := by
  simp [execSqrt, absolute, not_lt.mpr h]

/-- SQRT raises `DomainError` where the source cell is negative (R113). -/
theorem execSqrt_of_neg {b : Nat} (c d : Nat) {s : State} (h : s.mem.get b < 0) :
    execSqrt b c d s = .next (s.trap (.sqrt b c d) .domainError (s.mem.grow b)) := by
  simp [execSqrt, absolute, h]

/-- What executing an instruction can do: it retires it with some Memory, or, for a SQRT of a negative cell alone, it
raises `DomainError` (R89, R125). -/
theorem exec_cases (i : Instr) (s : State) :
    (∃ m, exec i s = .next (s.retire i m)) ∨
    (∃ b c d, i = .sqrt b c d ∧ s.mem.get b < 0 ∧ exec i s = .next (s.trap i .domainError (s.mem.grow b))) := by
  cases i with
  | loadConst b c => exact .inl ⟨_, execLoadConst_eq b c s⟩
  | loadMem b c d => exact .inl ⟨_, execLoadMem_eq b c d s⟩
  | store b c => exact .inl ⟨_, execStore_eq b c s⟩
  | sqrt b c d =>
    by_cases h : s.mem.get b < 0
    · exact .inr ⟨b, c, d, rfl, h, execSqrt_of_neg c d h⟩
    · exact .inl ⟨_, execSqrt_of_nonneg c d (not_lt.mp h)⟩

/-- What a step can do, by the order of the tests of R126. -/
theorem step_cases (s : State) :
    (s.status = .halted ∧ step s = .next s) ∨
    (s.status = .running ∧ s.pc = s.prog.length ∧ step s = .next s.haltNormally) ∨
    (∃ e, s.status = .running ∧ decode s.prog s.pc = .error e ∧ step s = .next (s.raise (engineFaultOf e) s.pc)) ∨
    (∃ i, s.status = .running ∧ decode s.prog s.pc = .ok (some i, s.pc + i.width) ∧ step s = exec i s) := by
  rcases hs : s.status with _ | _
  · rcases hd : decode s.prog s.pc with e | ⟨_ | i, n⟩
    · exact .inr (.inr (.inl ⟨e, rfl, rfl, by simp [step, hs, fetch, hd]⟩))
    · refine .inr (.inl ⟨rfl, ?_, by simp [step, hs, fetch, hd]⟩)
      rcases decode_cases s.prog s.pc with ⟨h, -⟩ | ⟨-, h⟩ | ⟨-, -, h⟩ | ⟨op, -, -, -, h⟩ | ⟨op, -, -, -, h⟩
      · exact h
      all_goals rw [hd] at h; simp at h
    · obtain ⟨-, rfl⟩ := decode_ok_some hd
      exact .inr (.inr (.inr ⟨i, rfl, rfl, by simp [step, hs, fetch, hd]⟩))
  · exact .inl ⟨rfl, by simp [step, hs]⟩

/-- Equal outcomes have equal next states. -/
theorem next_inj {s t : State} (h : (.next s : Host.Outcome State Fault Refusal) = .next t) : s = t := by
  cases h; rfl

@[simp] theorem runSteps_zero (s : State) : runSteps 0 s = .next s := rfl

/-- A run of a halted engine ends at once (R93, R97). -/
@[simp] theorem runSteps_halted {s : State} (h : s.status = .halted) (n : Nat) : runSteps n s = .next s := by
  cases n <;> simp [runSteps, h]

/-- A run of a running engine goes on from where its step leads (R93). -/
theorem runSteps_running {s t : State} (h : s.status = .running) (ht : step s = .next t) (n : Nat) :
    runSteps (n + 1) s = runSteps n t := by
  simp [runSteps, h, ht]

@[simp] theorem execAll_nil (s : State) : execAll [] s = .next s := rfl

/-- The rest of a list is executed from where its first instruction leads (R43). -/
theorem execAll_cons {i : Instr} {s t : State} (h : exec i s = .next t) (rest : List Instr) :
    execAll (i :: rest) s = execAll rest t := by
  simp [execAll, h]

/-- Bytes laid over a buffer are read back from where they were laid. -/
theorem drop_overlay (buf : List Byte) (off : Nat) (bytes : List Byte) :
    ((overlay buf off bytes).drop off).take bytes.length = bytes := by
  have h : (buf.take off ++ List.replicate (off - buf.length) (0 : Byte)).length = off := by
    simp; omega
  simp only [overlay, List.append_assoc]
  rw [← List.append_assoc, List.drop_left' h, List.take_left' rfl]

end Sys2Proof.Machine
end

