-- ==== Sys2Proof/Laws/PerInstr.lean ====
section
/-! SUPPORT. One lemma per constructor for the statements about every instruction as syntax. -/

namespace Sys2Proof.Laws

/-- The encoding of an instruction is as long as its width and begins with its opcode byte (R51, R71). -/
def EncodeLength.Statement (i : Instr) : Prop :=
  (encode i).length = i.width ∧ (encode i).head? = some (BitVec.ofNat 8 i.opcode.code)

theorem EncodeLength.loadConst (b c : Nat) : EncodeLength.Statement (.loadConst b c) := by
  simp [EncodeLength.Statement, encode, Instr.opcode, Opcode.code]

theorem EncodeLength.loadMem (b c d : Nat) : EncodeLength.Statement (.loadMem b c d) := by
  simp [EncodeLength.Statement, encode, Instr.opcode, Opcode.code]

theorem EncodeLength.store (b c : Nat) : EncodeLength.Statement (.store b c) := by
  simp [EncodeLength.Statement, encode, Instr.opcode, Opcode.code]

theorem EncodeLength.sqrt (b c d : Nat) : EncodeLength.Statement (.sqrt b c d) := by
  simp [EncodeLength.Statement, encode, Instr.opcode, Opcode.code]

end Sys2Proof.Laws
end

