-- ==== Sys2Proof/Laws/Sqrt.lean ====
section
/-! SUPPORT. `isqrt` is the floor square root (R110). -/

namespace Sys2Proof.Machine

theorem isqrtDigits_spec (fuel n : Nat) (h : n < 4 ^ fuel) :
    isqrtDigits fuel n * isqrtDigits fuel n ≤ n ∧ n < (isqrtDigits fuel n + 1) * (isqrtDigits fuel n + 1) := by
  induction fuel generalizing n with
  | zero => simp_all [isqrtDigits]
  | succ fuel ih =>
    obtain ⟨h1, h2⟩ := ih (n / 4) (by rw [pow_succ'] at h; omega)
    simp only [isqrtDigits]
    generalize isqrtDigits fuel (n / 4) = q at h1 h2
    have h3 : 4 * (q * q) ≤ n := by omega
    have h4 : n < 4 * ((q + 1) * (q + 1)) := by omega
    split
    · next h5 => exact ⟨h5, by nlinarith⟩
    · next h5 => exact ⟨by nlinarith, by omega⟩

/-- The defining property of the floor square root (R110). -/
theorem isqrt_spec (n : Nat) : isqrt n * isqrt n ≤ n ∧ n < (isqrt n + 1) * (isqrt n + 1) := by
  apply isqrtDigits_spec
  calc n < 2 ^ (n.log2 + 1) := Nat.lt_log2_self
    _ ≤ 4 ^ (n.log2 + 1) := Nat.pow_le_pow_left (by norm_num) _

end Sys2Proof.Machine
end

