-- ==== Sys2Proof/Tests/Slice0.lean ====
section
/-! SUPPORT. Small tests with expected results from the spec (spec/95_test_vectors.md, named in each comment), and, for every
statement with hypotheses, a concrete case that meets them (`witness_<statement>`). -/

namespace Sys2Proof.Tests

open Sys2Proof.Machine

/-- A running engine at offset 0 with this program and this Memory. -/
def engine (prog : List Byte) (cells : List Cell) (len : Nat) : State :=
  { State.resetWith prog 0 true with mem := ⟨cells, len⟩ }

/-- The next state of an outcome, where there is one. -/
def nextState : Host.Outcome State Fault Refusal → Option State
  | .next t => some t
  | .fault _ => none
  | .refused _ => none

/-! ### Well-formed: each check refuses an operand one past its field (R53) -/

theorem test_wellFormed_largest :
    (Instr.loadConst 65535 16777215).wellFormed = true ∧ (Instr.loadMem 65535 16777215 16777215).wellFormed = true ∧
    (Instr.store 65535 65535).wellFormed = true ∧ (Instr.sqrt 65535 16777215 16777215).wellFormed = true := by decide

theorem test_wellFormed_refuses_loadConst :
    (Instr.loadConst 65536 0).wellFormed = false ∧ (Instr.loadConst 0 16777216).wellFormed = false := by decide

theorem test_wellFormed_refuses_loadMem :
    (Instr.loadMem 65536 0 0).wellFormed = false ∧ (Instr.loadMem 0 16777216 0).wellFormed = false ∧
    (Instr.loadMem 0 0 16777216).wellFormed = false := by decide

theorem test_wellFormed_refuses_store :
    (Instr.store 65536 0).wellFormed = false ∧ (Instr.store 0 65536).wellFormed = false := by decide

theorem test_wellFormed_refuses_sqrt :
    (Instr.sqrt 65536 0 0).wellFormed = false ∧ (Instr.sqrt 0 16777216 0).wellFormed = false ∧
    (Instr.sqrt 0 0 16777216).wellFormed = false := by decide

/-! ### Decode: words written out from the encodings of R52 -/

/-- The bytes of V-E4. -/
theorem test_decode_loadConst :
    decode [0x1C, 0x34, 0x12, 0x9A, 0x78, 0x56] 0 = .ok (some (.loadConst 0x1234 0x56789A), 6) := by decide

/-- The bytes of V-E8. -/
theorem test_decode_loadMem :
    decode [0x18, 0x02, 0x01, 0x05, 0x04, 0x03, 0x08, 0x07, 0x06] 0 =
      .ok (some (.loadMem 0x0102 0x030405 0x060708), 9) := by decide

/-- The bytes of V-E12. -/
theorem test_decode_store :
    decode [0x11, 0x34, 0x12, 0x78, 0x56] 0 = .ok (some (.store 0x1234 0x5678), 5) := by decide

/-- V-D22: the reserved field is returned. -/
theorem test_decode_sqrt :
    decode [0x13, 0x00, 0x00, 0xEF, 0xCD, 0xAB, 0x01, 0x00, 0x00] 0 = .ok (some (.sqrt 0 0xABCDEF 1), 9) := by decide

/-- V-D20: what precedes the instruction does not matter. -/
theorem test_decode_offset : decode [0xAA, 0x11, 0x05, 0x00, 0x06, 0x00] 1 = .ok (some (.store 5 6), 6) := by decide

/-- V-E4, V-E8, V-E12, V-E15: the byte order of every field. -/
theorem test_encode :
    encode (.loadConst 0x1234 0x56789A) = [0x1C, 0x34, 0x12, 0x9A, 0x78, 0x56] ∧
    encode (.loadMem 0x0102 0x030405 0x060708) = [0x18, 0x02, 0x01, 0x05, 0x04, 0x03, 0x08, 0x07, 0x06] ∧
    encode (.store 0x1234 0x5678) = [0x11, 0x34, 0x12, 0x78, 0x56] ∧
    encode (.sqrt 0 0xABCDEF 1) = [0x13, 0x00, 0x00, 0xEF, 0xCD, 0xAB, 0x01, 0x00, 0x00] := by decide

/-- V-E14, V-E17, V-E18: operand defaulting and the dropped D. -/
theorem test_encodeFields_defaults :
    encodeFields 19 (some 6) none (some 7) = .ok [0x13, 0x06, 0x00, 0x00, 0x00, 0x00, 0x07, 0x00, 0x00] ∧
    encodeFields 28 none none none = .ok [0x1C, 0x00, 0x00, 0x00, 0x00, 0x00] ∧
    encodeFields 17 (some 5) (some 6) (some 999999999) = .ok [0x11, 0x05, 0x00, 0x06, 0x00] := by decide

/-- V-E20, V-E22, V-E25, V-E28, V-E29, V-E30: the encoder's errors. -/
theorem test_encodeFields_errors :
    encodeFields 17 (some 5) (some 65536) none = .error .invalidOperand ∧
    encodeFields 28 (some (-1)) (some 0) none = .error .invalidOperand ∧
    encodeFields 19 (some 0) (some 0) (some (-1)) = .error .invalidOperand ∧
    encodeFields 300 (some 0) (some 0) (some 0) = .error .unknownOpcode ∧
    encodeFields (-1) (some 0) (some 0) (some 0) = .error .unknownOpcode ∧
    encodeFields 18 (some 70000) (some 0) (some 0) = .error .unknownOpcode := by decide

/-- V-D23: the neighbours of the four opcodes are unknown. -/
theorem test_decode_neighbours :
    ∀ x ∈ ([0x10, 0x12, 0x14, 0x19, 0x1B, 0x1D] : List Byte), decode [x] 0 = .error .unknownOpcode := by decide

/-- The table's `match` value alone, with every operand bit 0, is the row's instruction. -/
theorem test_table_words :
    decodeTableWord 8 0x1C = some (.loadConst 0 0) ∧ decodeTableWord 8 0x18 = some (.loadMem 0 0 0) ∧
    decodeTableWord 8 0x11 = some (.store 0 0) ∧ decodeTableWord 8 0x13 = some (.sqrt 0 0 0) ∧
    decodeTableWord 8 0x00 = none := by decide

/-! ### Memory and the host's reads -/

/-- V-M1, the source's growth example (R37). -/
theorem test_memory_growth :
    let m := ((⟨[], 0⟩ : Memory).write 5 42).write 100 7
    m.len = 101 ∧ (m.read 5).1 = 42 ∧ (m.read 100).1 = 7 ∧ (m.read 50).1 = 0 ∧ (m.read 50).2.len = 101 := by decide

/-- V-M5: `Peek` does not grow Memory. -/
theorem test_peek : (engine [] [(3, 8)] 4).peek 1000 = 0 ∧ (engine [] [(3, 8)] 4).peek 3 = 8 := by decide

/-- R14 and R120: the numeric codes. -/
theorem test_codes :
    faultRegisterCode none = 0 ∧ faultRegisterCode (some .unknownOpcode) = 1 ∧
    faultRegisterCode (some .truncatedInstruction) = 2 ∧ faultRegisterCode (some .domainError) = 3 ∧
    ErrorKind.invalidOperand.code = 4 ∧ statusBit .running = 0 ∧ statusBit .halted = 1 := by decide

/-! ### One step of each instruction -/

/-- V-LC1. -/
theorem test_loadConst :
    (nextState (step (engine [0x1C, 0x05, 0x00, 0x2A, 0x00, 0x00] [] 0))).map (fun t => (t.pc, t.mem, t.trace)) =
      some (6, ⟨[(5, 42)], 6⟩, [⟨0, .loadConst 5 42⟩]) := by decide

/-- V-LC2: writing 0 lists no cell but grows Memory. -/
theorem test_loadConst_zero :
    (nextState (step (engine [0x1C, 0x00, 0x00, 0x00, 0x00, 0x00] [] 0))).map (fun t => t.mem) = some ⟨[], 1⟩ := by decide

/-- V-LM3: the smear that pins the forward order. -/
theorem test_loadMem_smear :
    (nextState (exec (.loadMem 1 3 0) (engine [] [(0, 1), (1, 2), (2, 3), (3, 4), (4, 5)] 5))).map (fun t => t.mem) =
      some ⟨[(0, 1), (1, 1), (2, 1), (3, 1), (4, 5)], 5⟩ := by decide

/-- V-LM7: the third source cell lies past the end and reads 0. -/
theorem test_loadMem_clean :
    (nextState (exec (.loadMem 5 2 1) (engine [] [(0, 1), (1, 2), (2, 3)] 3))).map (fun t => (t.pc, t.mem)) =
      some (9, ⟨[(0, 1), (1, 2), (2, 3), (5, 2), (6, 3)], 7⟩) := by decide

/-- V-ST1. -/
theorem test_store :
    (nextState (step (engine [0x11, 0x05, 0x00, 0x06, 0x00] [(5, 42)] 6))).map (fun t => (t.pc, t.mem)) =
      some (5, ⟨[(5, 42), (6, 42)], 7⟩) := by decide

/-- V-ST3: a source past the end reads 0 and the read grows Memory. -/
theorem test_store_from_past_end :
    (nextState (exec (.store 8 4) (engine [] [(4, 9)] 5))).map (fun t => t.mem) = some ⟨[], 9⟩ := by decide

/-- V-SQ5: source and destination are the same cell. -/
theorem test_sqrt :
    (nextState (exec (.sqrt 4 5 4) (engine [] [(4, 81)] 5))).map (fun t => (t.pc, t.mem)) =
      some (9, ⟨[(4, 9)], 5⟩) := by decide

/-- V-SQ10: `DomainError` after the read has grown Memory and before any write. -/
theorem test_sqrt_domainError :
    nextState (exec (.sqrt 3 0 9) (engine [] [(3, -4)] 2)) =
      some { engine [] [(3, -4)] 4 with
        status := .halted, fault := some .domainError, faultPc := some 0, trace := [⟨0, .sqrt 3 0 9⟩] } := by decide

/-- V-SQ7 and V-SQ8: exact at and just below a perfect square. -/
theorem test_isqrt : isqrt 42 = 6 ∧ isqrt 16769025 = 4095 ∧ isqrt 16769024 = 4094 := by decide +kernel

/-! ### The engine -/

/-- V-X1: the empty program halts at the first step. -/
theorem test_empty_program : nextState (step State.reset) = some { State.reset with status := .halted } := by decide

/-- V-X3: an unknown opcode. -/
theorem test_unknownOpcode :
    nextState (step (engine [0xFF] [] 0)) =
      some { engine [0xFF] [] 0 with status := .halted, fault := some .unknownOpcode, faultPc := some 0 } := by decide

/-- V-X4: an opcode alone. -/
theorem test_truncated :
    nextState (step (engine [0x1C] [] 0)) =
      some { engine [0x1C] [] 0 with status := .halted, fault := some .truncatedInstruction, faultPc := some 0 } := by
  decide

/-- R140: reset from a faulted state. -/
theorem test_assertReset :
    ({ engine [0xFF] [(1, 2)] 9 with status := .halted, fault := some .unknownOpcode, faultPc := some 0 }).assertReset =
      State.resetWith [0xFF] 0 true := by decide

/-- A table word runs as the first instruction after reset. -/
theorem test_withFetchWord :
    (nextState (step (State.reset.withFetchWord 48 0x00002A00051C))).map (fun t => (t.pc, t.mem)) =
      some (6, ⟨[(5, 42)], 6⟩) := by decide

/-! ### Cases that meet the hypotheses of the statements -/

/-- LOAD_CONST B=5,C=42 and nothing else. -/
def oneInstruction : List Byte := [0x1C, 0x05, 0x00, 0x2A, 0x00, 0x00]

/-- The engine of the witnesses: running, with cell 2 holding 9, before LOAD_CONST B=5,C=42. -/
def ready : State := engine oneInstruction [(2, 9)] 3

/-- The engine behind that instruction, at the end of its program. -/
def atEnd : State := { ready with pc := 6 }

/-- The engine after its normal end. -/
def ended : State := { atEnd with status := .halted }

/-- An engine before a SQRT whose source cell is negative. -/
def negative : State := engine [0x13, 0x02, 0x00, 0x00, 0x00, 0x00, 0x07, 0x00, 0x00] [(2, -1)] 3

/-- A Memory with one listed cell, below the length and in range, meets the invariants of Memory. -/
theorem memory_invariants_of_one_cell {k len : Nat} {v : Int} (h1 : k < len) (h2 : 0 < v) (h3 : v ≤ 16777215) :
    (⟨[(k, v)], len⟩ : Memory).wf ∧ (⟨[(k, v)], len⟩ : Memory).Bounded ∧ (⟨[(k, v)], len⟩ : Memory).InRange := by
  refine ⟨by simp [Memory.wf]; omega, fun a ha => ?_, fun a => ?_⟩
  · have hka : k ≠ a := Nat.ne_of_lt (Nat.lt_of_lt_of_le h1 ha)
    simp [Memory.get, lookupCell, hka]
  · simp only [Memory.get, lookupCell]
    split <;> omega

theorem ready_memory : ready.mem.wf ∧ ready.mem.Bounded ∧ ready.mem.InRange :=
  memory_invariants_of_one_cell (by decide) (by decide) (by decide)

theorem ready_decodes : decode ready.prog ready.pc = .ok (some (.loadConst 5 42), 6) := by decide

/-- Operands at the ends of their ranges. -/
theorem witness_DecodeOfEncode :
    (Instr.sqrt 0 0 0).wellFormed = true ∧ (Instr.sqrt 65535 16777215 16777215).wellFormed = true := by decide

/-- V-D16 for the first clause; the last well-formed SQRT bytes for the second. -/
theorem witness_EncodeOfDecode :
    decode [0x13, 0xFF, 0xFF, 0xFF, 0xFF, 0xFF, 0xFF, 0xFF, 0xFF] 0 = .ok (some (.sqrt 65535 16777215 16777215), 9) ∧
    Opcode.ofByte (byteAt [0x13, 0xFF, 0xFF, 0xFF, 0xFF, 0xFF, 0xFF, 0xFF, 0xFF] 0) = some .sqrt ∧
    ([0x13, 0xFF, 0xFF, 0xFF, 0xFF, 0xFF, 0xFF, 0xFF, 0xFF] : List Byte).length = Opcode.sqrt.layout.width := by decide

/-- V-D3, V-D4, V-D8, V-D6 and V-D2: each clause at the boundary of the next. -/
theorem witness_DecodeOutcomes :
    (6 = oneInstruction.length ∧ decode oneInstruction 6 = .ok (none, 6)) ∧
    (oneInstruction.length < 7 ∧ decode oneInstruction 7 = .error .truncatedInstruction) ∧
    (Opcode.ofByte (byteAt [0xFF] 0) = none ∧ decode [0xFF] 0 = .error .unknownOpcode) ∧
    (Opcode.ofByte (byteAt [0x1C, 0x05, 0x00, 0x2A, 0x00] 0) = some .loadConst ∧ 5 - 0 < Opcode.loadConst.layout.width ∧
      decode [0x1C, 0x05, 0x00, 0x2A, 0x00] 0 = .error .truncatedInstruction) ∧
    (Opcode.loadConst.layout.width ≤ oneInstruction.length - 0 ∧
      decode oneInstruction 0 = .ok (some (.loadConst 5 42), 6)) := by decide

/-- An unknown byte, an opcode with exactly its bytes, and one with one byte fewer (V-D8, V-D11, V-D12). -/
theorem witness_IllegalEncodings :
    (byteAt [0xFF] 0).toNat ∉ [17, 19, 24, 28] ∧
    ((byteAt [0x11, 0x05, 0x00, 0x06, 0x00] 0).toNat ∈ [17, 19, 24, 28] ∧ Opcode.store.code = 17 ∧
      Opcode.store.layout.width ≤ 5 - 0) ∧
    ((byteAt [0x11, 0x05, 0x00, 0x06] 0).toNat ∈ [17, 19, 24, 28] ∧ 4 - 0 < Opcode.store.layout.width) := by decide

/-- No opcode; an opcode whose operands fit at the ends of their ranges; one whose C is one past its range. -/
theorem witness_EncodeOutcomes :
    (18 : Int) ∉ ([17, 19, 24, 28] : List Int) ∧
    ((17 : Int) = Opcode.store.code ∧ (0 : Int) ≤ 0 ∧ (65535 : Int) < 256 ^ Opcode.store.layout.bWidth ∧
      (65535 : Int) < 256 ^ Opcode.store.layout.cWidth ∧ Opcode.store.layout.dWidth = none) ∧
    ((19 : Int) = Opcode.sqrt.code ∧ Opcode.sqrt.layout.dWidth = some 3 ∧ (16777215 : Int) < 256 ^ 3) ∧
    ¬ ((65536 : Int) < 256 ^ Opcode.store.layout.cWidth) := by decide

theorem witness_EncodingsPrefixFree :
    (Instr.store 65535 0).wellFormed = true ∧ encode (.store 65535 0) <+: encode (.store 65535 0) ∧
    Opcode.store.code = Opcode.store.code := by decide

/-- A list of well-formed instructions, a buffer that decodes to its end, and P5b, one that does not. -/
theorem witness_ProgramBuffer :
    (∀ i ∈ [Instr.loadConst 5 42], i.wellFormed = true) ∧ decodeProgram oneInstruction = .ok [.loadConst 5 42] ∧
    decodeProgram [0x1C, 0x01, 0x00, 0x07, 0x00, 0x00, 0x00] = .error .unknownOpcode := by decide

/-- The address at the length, the first that the second clause speaks of. -/
theorem witness_PeekShowsWhatReadReturns : ready.mem.Bounded ∧ ready.mem.len ≤ 3 := ⟨ready_memory.2.1, by decide⟩

/-- A source cell of 0, the least value that has a root, and of 9. -/
theorem witness_SqrtResult : 0 ≤ ready.mem.get 7 ∧ ready.mem.get 7 = 0 ∧ 0 ≤ ready.mem.get 2 := by decide

theorem witness_SqrtOfNegativeRaisesDomainError : negative.mem.get 2 < 0 ∧ negative.mem.get 2 = -1 := by decide

/-- Orders of the two values, and the least value the last clause of `RepeatedIsqrtReachesOne` speaks of. -/
theorem witness_IsqrtIsTheFloorSquareRoot : (15 : Nat) ≤ 16 ∧ (2 : Nat) ≤ 2 := by decide

theorem witness_StepRunsTheDecodedInstruction :
    ready.status = .running ∧ decode ready.prog ready.pc = .ok (some (.loadConst 5 42), 6) := by decide

theorem witness_HaltedEngineNeverChanges : ended.status = .halted := rfl

/-- A running engine at the end of its program, the state its step leads to, and a list of instructions. -/
theorem witness_NormalEnd :
    (atEnd.status = .running ∧ atEnd.pc = atEnd.prog.length) ∧
    (atEnd.fault = none ∧ step atEnd = .next ended ∧ ended.EndedNormally) ∧
    (∀ i ∈ [Instr.loadConst 5 42], i.wellFormed = true) :=
  ⟨by decide, ⟨rfl, rfl, by decide⟩, by decide⟩

theorem witness_DecodeFailureRaisesItsFault :
    ((engine [0xFF] [] 0).status = .running ∧ decode (engine [0xFF] [] 0).prog 0 = .error .unknownOpcode) ∧
    ((engine [0x1C] [] 0).status = .running ∧ decode (engine [0x1C] [] 0).prog 0 = .error .truncatedInstruction) := by
  decide

/-- An instruction that is the last of its program, so that the last clause is met too. -/
theorem witness_PcAdvancesByTheWidth :
    ready.status = .running ∧ decode ready.prog ready.pc = .ok (some (.loadConst 5 42), 6) ∧
    (∀ b c d, Instr.loadConst 5 42 = .sqrt b c d → 0 ≤ ready.mem.get b) ∧
    (∃ t, step ready = .next t ∧ t.pc = t.prog.length) :=
  ⟨rfl, ready_decodes, by simp, _, rfl, rfl⟩

/-- The normal end, a fault, and a step that does not halt. -/
theorem witness_StepHaltsInExactlyTwoCases :
    (atEnd.status = .running ∧ atEnd.fault = none ∧ ∃ t, step atEnd = .next t ∧ t.status = .halted) ∧
    (negative.status = .running ∧ negative.fault = none ∧ ∃ t, step negative = .next t ∧ t.fault ≠ none) ∧
    (ready.status = .running ∧ ready.fault = none ∧ ∃ t, step ready = .next t ∧ t.status = .running) :=
  ⟨⟨rfl, rfl, _, rfl, rfl⟩, ⟨rfl, rfl, _, rfl, by simp⟩, ⟨rfl, rfl, _, rfl, rfl⟩⟩

/-- One case for each of the three kinds of fault. -/
theorem witness_FaultsArePrecise :
    (∃ t, step (engine [0xFF] [] 0) = .next t ∧ t.fault = some .unknownOpcode) ∧
    (∃ t, step (engine [0x1C] [] 0) = .next t ∧ t.fault = some .truncatedInstruction) ∧
    (negative.status = .running ∧ negative.fault = none ∧ (∃ t, step negative = .next t ∧ t.fault = some .domainError) ∧
      decode negative.prog negative.pc = .ok (some (.sqrt 2 0 7), 9)) :=
  ⟨⟨_, rfl, rfl⟩, ⟨_, rfl, rfl⟩, rfl, rfl, ⟨_, rfl, rfl⟩, by decide⟩

/-- An engine that traces a decoded instruction, and the three cases in which no event is emitted. -/
theorem witness_OneTraceEventPerDecodedInstruction :
    (ready.status = .running ∧ ready.traceEn = true ∧ decode ready.prog ready.pc = .ok (some (.loadConst 5 42), 6) ∧
      ∃ t, step ready = .next t) ∧
    (ended.status = .halted ∧ ∃ t, step ended = .next t) ∧
    (({ ready with traceEn := false } : State).traceEn = false ∧ ∃ t, step { ready with traceEn := false } = .next t) ∧
    ((∀ i n, decode atEnd.prog atEnd.pc ≠ .ok (some i, n)) ∧ ∃ t, step atEnd = .next t) := by
  refine ⟨⟨rfl, rfl, ready_decodes, _, rfl⟩, ⟨rfl, _, rfl⟩, ⟨rfl, _, rfl⟩, ?_, _, rfl⟩
  have h : decode atEnd.prog atEnd.pc = .ok (none, 6) := by decide
  simp [h]

/-- A state and its next state, for the statements whose one hypothesis is a step: `StepNeverWritesProgramOrConfiguration`,
`MemoryNeverShrinks`, `LengthInfluencesNothingElse`, `TraceInfluencesNothingElse`. -/
theorem witness_StepAnswersANextState : ∃ t, step ready = .next t ∧ t.mem.len = 6 := ⟨_, rfl, rfl⟩

theorem witness_StepKeepsMemoryCanonical : ready.mem.wf ∧ ∃ t, step ready = .next t := ⟨ready_memory.1, _, rfl⟩

theorem witness_StepKeepsPcAndFaultRecord :
    ready.PcInProgram ∧ ready.FaultRecordOk ∧ ∃ t, step ready = .next t := ⟨by decide, by decide, _, rfl⟩

theorem witness_StepKeepsCellsInRange :
    ready.mem.InRange ∧ ready.fault ≠ some .domainError ∧ ∃ t, step ready = .next t :=
  ⟨ready_memory.2.2, by decide, _, rfl⟩

theorem witness_StepKeepsCellsPastLengthZero : ready.mem.Bounded ∧ ∃ t, step ready = .next t :=
  ⟨ready_memory.2.1, _, rfl⟩

theorem witness_MemoryLengthStaysWithinTheAddressableRange :
    ready.mem.len ≤ max ready.memInitLen (2 ^ 25 - 2) ∧ ∃ t, step ready = .next t := ⟨by decide, _, rfl⟩

theorem witness_EveryRunFromResetMeetsTheInvariants :
    ∃ t, runSteps 1 (State.resetWith oneInstruction 0 true) = .next t ∧ t.pc = 6 := ⟨_, rfl, rfl⟩

/-- A run from the first instruction, from the end of the program, and of a failed engine. -/
theorem witness_EveryRunEnds :
    (ready.PcInProgram ∧ ready.FaultRecordOk) ∧ (atEnd.PcInProgram ∧ atEnd.FaultRecordOk) ∧
    (({ ready with status := .halted, fault := some .unknownOpcode, faultPc := some 0 } : State).PcInProgram ∧
      ({ ready with status := .halted, fault := some .unknownOpcode, faultPc := some 0 } : State).FaultRecordOk) := by
  decide

/-- One instruction of each kind, each but the last feeding the next, and bytes before and after them. -/
def fourInstructions : List Instr := [.loadConst 5 42, .store 5 6, .sqrt 6 0 7, .loadMem 0 3 5]

/-- A running engine before those instructions. -/
def beforeFour : State := { ready with prog := [0xAA] ++ assemble fourInstructions ++ [0xFF], pc := 1 }

theorem witness_InstructionsExecuteInBufferOrder :
    (∀ i ∈ fourInstructions, i.wellFormed = true) ∧
    beforeFour.prog = [0xAA] ++ assemble fourInstructions ++ [0xFF] ∧ beforeFour.pc = ([0xAA] : List Byte).length ∧
    beforeFour.status = .running ∧ beforeFour.mem.InRange :=
  ⟨by decide, rfl, rfl, rfl, ready_memory.2.2⟩

/-- The empty program, a program with an instruction at offset 0, and one without. -/
theorem witness_FirstStepDecodesOffsetZero :
    ([] : List Byte) = [] ∧ decode oneInstruction 0 = .ok (some (.loadConst 5 42), 6) ∧
    decode [0xFF] 0 = .error .unknownOpcode := by decide

theorem witness_PlacedWordRunsNext : decodeTableWord 40 0x0006000511 = some (.store 5 6) := by decide

end Sys2Proof.Tests
end

section
/-! PROOFS. Memory after a sequence of accesses (spec 20_memory.md R33 to R35). -/

namespace Sys2Proof.Machine

/-- The values a sequence of accesses writes to one address, oldest first. -/
def writesTo (a : Nat) (accesses : List (Nat × Option Int)) : List Int :=
  (accesses.filter (fun x => x.1 == a)).filterMap (fun x => x.2)

@[simp] theorem writesTo_nil (a : Nat) : writesTo a [] = [] := rfl

@[simp] theorem writesTo_read (a b : Nat) (rest : List (Nat × Option Int)) :
    writesTo a ((b, none) :: rest) = writesTo a rest := by
  by_cases h : b = a <;> simp [writesTo, h]

@[simp] theorem writesTo_write_self (a : Nat) (v : Int) (rest : List (Nat × Option Int)) :
    writesTo a ((a, some v) :: rest) = v :: writesTo a rest := by
  simp [writesTo]

theorem writesTo_write_other {a b : Nat} (h : b ≠ a) (v : Int) (rest : List (Nat × Option Int)) :
    writesTo a ((b, some v) :: rest) = writesTo a rest := by
  simp [writesTo, h]

@[simp] theorem accessAll_nil (m : Memory) : accessAll m [] = m := rfl

@[simp] theorem accessAll_read (m : Memory) (a : Nat) (rest : List (Nat × Option Int)) :
    accessAll m ((a, none) :: rest) = accessAll (m.grow a) rest := rfl

@[simp] theorem accessAll_write (m : Memory) (a : Nat) (v : Int) (rest : List (Nat × Option Int)) :
    accessAll m ((a, some v) :: rest) = accessAll (m.write a v) rest := rfl

/-- A cell of Memory after reset holds 0, whatever the initial length (R16, R26). -/
@[simp] theorem Memory.get_empty (n a : Nat) : (⟨[], n⟩ : Memory).get a = 0 := rfl

/-- The length after `Grow(a)` in the form R33 states it: changed exactly when the address is at or past it. -/
theorem Memory.len_grow_eq_ite (m : Memory) (a : Nat) :
    (m.grow a).len = if m.len ≤ a then a + 1 else m.len := rfl

/-- The latest write decides a cell; where there is none, the cell keeps what it held at the start (R34, R35). The start
is any Memory, since each access of the induction leaves another one behind. -/
theorem get_accessAll (m : Memory) (accesses : List (Nat × Option Int)) (a : Nat) :
    (accessAll m accesses).get a = (writesTo a accesses).getLast?.getD (m.get a) := by
  induction accesses generalizing m with
  | nil => simp
  | cons x rest ih =>
    obtain ⟨b, _ | v⟩ := x
    case none => simp [ih]
    case some =>
      by_cases h : b = a
      · subst h
        simp [ih, List.getLast?_cons]
      · simp [ih, writesTo_write_other h, Ne.symm h]

/-- Settles O10: a cell's value by `get_accessAll` from reset, where every cell is 0; a read only grows Memory. -/
theorem readReturnsLatestWrite : Obligations.ReadReturnsLatestWrite := by
  intro n accesses a m
  have value : (m.read a).1 = (writesTo a accesses).getLast?.getD 0 := by
    rw [Memory.read_value, get_accessAll, Memory.get_empty]
  exact ⟨value, Memory.cells_grow m a, Memory.len_grow_eq_ite m a⟩

end Sys2Proof.Machine
end

section
/-! PROOFS. The codec: an instruction as an opcode with three operands, its bytes in any buffer, and the illegal first
bytes (spec 30_encoding.md R56, R66; 40_codec.md R79). -/

namespace Sys2Proof

/-! ### Opcodes by their byte -/

/-- The four opcode bytes, as the spec lists them (R55). -/
theorem mem_codes {n : Nat} : n ∈ [17, 19, 24, 28] ↔ ∃ op : Opcode, op.code = n := by
  constructor
  · intro h
    simp only [List.mem_cons, List.not_mem_nil, or_false] at h
    rcases h with rfl | rfl | rfl | rfl
    exacts [⟨.store, rfl⟩, ⟨.sqrt, rfl⟩, ⟨.loadMem, rfl⟩, ⟨.loadConst, rfl⟩]
  · rintro ⟨op, rfl⟩
    cases op <;> simp [Opcode.code]

theorem ofByte_eq_some {a : Byte} {op : Opcode} : Opcode.ofByte a = some op ↔ a.toNat = op.code := by
  rw [Opcode.ofByte, ofInt_eq_some, Int.natCast_inj]

theorem ofByte_eq_none {a : Byte} (h : a.toNat ∉ [17, 19, 24, 28]) : Opcode.ofByte a = none := by
  rw [Option.eq_none_iff_forall_ne_some]
  intro op hop
  exact h (mem_codes.mpr ⟨op, (ofByte_eq_some.mp hop).symm⟩)

/-- The values below 256 that select an opcode are the four opcode bytes, each once (R51, R55). -/
theorem legal_bytes_perm :
    ((List.range 256).filter (fun a => (Opcode.ofByte (BitVec.ofNat 8 a)).isSome)).Perm [17, 19, 24, 28] := by
  refine (List.perm_ext_iff_of_nodup (List.nodup_range.filter _) (by decide)).mpr fun a => ?_
  rw [List.mem_filter, List.mem_range, mem_codes, Option.isSome_iff_exists]
  refine ⟨fun ⟨ha, op, hop⟩ => ⟨op, ?_⟩, ?_⟩
  · rw [← ofByte_eq_some.mp hop, BitVec.toNat_ofNat, Nat.mod_eq_of_lt ha]
  · rintro ⟨op, rfl⟩
    exact ⟨by cases op <;> decide, op, ofByte_code op⟩

/-- 252 of the 256 byte values select no opcode: all but the four opcode bytes (R56). -/
theorem illegal_bytes_length :
    ((List.range 256).filter (fun a => (Opcode.ofByte (BitVec.ofNat 8 a)).isNone)).length = 252 := by
  have total := List.length_eq_length_filter_add (l := List.range 256)
    (fun a => (Opcode.ofByte (BitVec.ofNat 8 a)).isSome)
  simp only [legal_bytes_perm.length_eq, List.length_range, Option.not_isSome, List.length_cons,
    List.length_nil] at total
  omega

/-! ### An instruction as an opcode with its operands -/

/-- The bytes of an instruction by the layout of its opcode; an absent D takes none (R51, R52, R71). -/
theorem encode_instr (op : Opcode) (b c d : Nat) :
    encode (op.instr b c d) = BitVec.ofNat 8 op.code ::
      (leBytes op.layout.bWidth b ++ leBytes op.layout.cWidth c ++ leBytes (op.layout.dWidth.getD 0) d) := by
  cases op <;> simp [encode, Opcode.instr, Opcode.code, Opcode.layout, leBytes]

theorem encode_length (i : Instr) : (encode i).length = i.width := by
  cases i with
  | loadConst b c => exact (Laws.EncodeLength.loadConst b c).1
  | loadMem b c d => exact (Laws.EncodeLength.loadMem b c d).1
  | store b c => exact (Laws.EncodeLength.store b c).1
  | sqrt b c d => exact (Laws.EncodeLength.sqrt b c d).1

@[simp] theorem width_instr (op : Opcode) (b c d : Nat) : (op.instr b c d).width = op.layout.width := by
  rw [Instr.width, opcode_instr]

theorem record_instr (op : Opcode) (b c d : Nat) :
    (op.instr b c d).record = ⟨op.code, b, c, op.layout.dWidth.map (fun _ => d)⟩ := by
  cases op <;> rfl

/-- A well-formed instruction is an opcode with operands that fit its layout; an absent D counts as the 0 that fits no
bytes (R50, R53). -/
theorem exists_operands {i : Instr} (h : i.wellFormed = true) :
    ∃ op b c d, i = Opcode.instr op b c d ∧ b < 256 ^ op.layout.bWidth ∧ c < 256 ^ op.layout.cWidth ∧
      d < 256 ^ op.layout.dWidth.getD 0 := by
  cases i <;> simp only [Instr.wellFormed, fitsField, Bool.and_eq_true, decide_eq_true_eq] at h
  case loadConst b c =>
    obtain ⟨hb, hc⟩ := h
    exact ⟨.loadConst, b, c, 0, rfl, hb, hc, Nat.one_pos⟩
  case loadMem b c d =>
    obtain ⟨⟨hb, hc⟩, hd⟩ := h
    exact ⟨.loadMem, b, c, d, rfl, hb, hc, hd⟩
  case store b c =>
    obtain ⟨hb, hc⟩ := h
    exact ⟨.store, b, c, 0, rfl, hb, hc, Nat.one_pos⟩
  case sqrt b c d =>
    obtain ⟨⟨hb, hc⟩, hd⟩ := h
    exact ⟨.sqrt, b, c, d, rfl, hb, hc, hd⟩

/-! ### Decoding the bytes of an instruction -/

@[simp] theorem byteAt_append_cons (before rest : List Byte) (x : Byte) :
    byteAt (before ++ x :: rest) before.length = x := by
  simp [byteAt]

/-- A field is read from the bytes that hold it, whatever stands before and after (R7). -/
theorem fetchField_append {before after : List Byte} {off n v : Nat} (hoff : off = before.length)
    (h : v < 256 ^ n) : fetchField (before ++ (leBytes n v ++ after)) off n = v := by
  have htake : (leBytes n v ++ after).take n = leBytes n v := List.take_left' (leBytes_length n v)
  rw [fetchField, hoff, List.drop_left, htake, leValue_leBytes h]

/-- R66 and R79 for an opcode with operands that fit its layout, inside any buffer. -/
theorem decode_encode_instr (op : Opcode) {b c d : Nat} (hb : b < 256 ^ op.layout.bWidth)
    (hc : c < 256 ^ op.layout.cWidth) (hd : d < 256 ^ op.layout.dWidth.getD 0) (before after : List Byte) :
    decode (before ++ encode (op.instr b c d) ++ after) before.length =
      .ok (some (op.instr b c d), before.length + op.layout.width) := by
  set opByte : Byte := BitVec.ofNat 8 op.code
  set B := leBytes op.layout.bWidth b with hB
  set C := leBytes op.layout.cWidth c with hC
  set D := leBytes (op.layout.dWidth.getD 0) d
  have bytes : encode (op.instr b c d) = opByte :: (B ++ C ++ D) := encode_instr op b c d
  set buf := before ++ encode (op.instr b c d) ++ after with hbuf
  have hlen : buf.length = before.length + op.layout.width + after.length := by
    simp [hbuf, encode_length, Nat.add_assoc]
  have hpos : 0 < op.layout.width := by simp only [Layout.width]; omega
  have hop : Opcode.ofByte (byteAt buf before.length) = some op := by
    have at_op : buf = before ++ opByte :: (B ++ C ++ D ++ after) := by simp [hbuf, bytes]
    rw [at_op, byteAt_append_cons, ofByte_code]
  have fetchB : fetchField buf (before.length + 1) op.layout.bWidth = b := by
    have at_B : buf = (before ++ [opByte]) ++ (B ++ (C ++ D ++ after)) := by simp [hbuf, bytes]
    rw [at_B]
    exact fetchField_append (by simp) hb
  have fetchC : fetchField buf (before.length + 1 + op.layout.bWidth) op.layout.cWidth = c := by
    have at_C : buf = (before ++ [opByte] ++ B) ++ (C ++ (D ++ after)) := by simp [hbuf, bytes]
    rw [at_C]
    exact fetchField_append (by simp [hB]; omega) hc
  have fetchD : fetchField buf (before.length + 1 + op.layout.bWidth + op.layout.cWidth)
      (op.layout.dWidth.getD 0) = d := by
    have at_D : buf = (before ++ [opByte] ++ B ++ C) ++ (D ++ after) := by simp [hbuf, bytes]
    rw [at_D]
    exact fetchField_append (by simp [hB, hC]; omega) hd
  rw [decode_instr (by omega) hop (by omega), fetchB, fetchC, fetchD]

/-- R79 inside any buffer. -/
theorem decode_encode {i : Instr} (h : i.wellFormed = true) (before after : List Byte) :
    decode (before ++ encode i ++ after) before.length = .ok (some i, before.length + i.width) := by
  obtain ⟨op, b, c, d, rfl, hb, hc, hd⟩ := exists_operands h
  rw [width_instr]
  exact decode_encode_instr op hb hc hd before after

/-! ### `Encode` on operands that fit -/

@[simp] theorem inField_natCast {w v : Nat} : inField w v = true ↔ v < 256 ^ w := by
  simp only [inField, decide_eq_true_eq]
  exact ⟨fun h => by exact_mod_cast h.2, fun h => ⟨Int.natCast_nonneg v, by exact_mod_cast h⟩⟩

theorem optionalFieldBytes_eq (w : Option Nat) (v : Nat) : optionalFieldBytes w v = leBytes (w.getD 0) v := by
  cases w <;> rfl

/-- With an opcode and operands in their ranges, `Encode` answers the bytes of the instruction (R71, R73). -/
theorem encodeFields_ok {op : Opcode} {b c d : Option Int} (hb : inField op.layout.bWidth (b.getD 0) = true)
    (hc : inField op.layout.cWidth (c.getD 0) = true) (hd : inOptionalField op.layout.dWidth (d.getD 0) = true) :
    encodeFields op.code b c d =
      .ok (encode (op.instr (b.getD 0).toNat (c.getD 0).toNat (d.getD 0).toNat)) := by
  have hop : Opcode.ofInt op.code = some op := ofInt_eq_some.mpr rfl
  simp [encodeFields, hop, hb, hc, hd, encode_instr, optionalFieldBytes_eq]

theorem inOptionalField_natCast {w : Option Nat} {v : Nat} (h : v < 256 ^ w.getD 0) : inOptionalField w v = true := by
  cases w with
  | none => rfl
  | some n => exact inField_natCast.mpr h

/-- The D of a record, absent or not, encodes as the operand it stands for (R63, R72). -/
theorem getD_record_d {w : Option Nat} {d : Nat} (h : d < 256 ^ w.getD 0) :
    ((w.map (fun _ => d)).map (fun v => (v : Int))).getD 0 = d := by
  cases w with
  | none =>
    have hd : d = 0 := by simpa using h
    simp [hd]
  | some n => rfl

/-- `Encode` of a well-formed instruction's record succeeds with its bytes (R79). -/
theorem encodeRecord_record {i : Instr} (h : i.wellFormed = true) : encodeRecord i.record = .ok (encode i) := by
  obtain ⟨op, b, c, d, rfl, hb, hc, hd⟩ := exists_operands h
  have hgetD := getD_record_d hd
  have encoded := encodeFields_ok (b := some b) (c := some c) (inField_natCast.mpr hb) (inField_natCast.mpr hc)
    (hgetD ▸ inOptionalField_natCast hd)
  rw [hgetD] at encoded
  simpa [encodeRecord, record_instr] using encoded

/-! ### The statements -/

/-- Settles O1: the bytes of the whole buffer by `decode_encode`; the bytes alone are its case with nothing around. -/
theorem decodeOfEncode : Obligations.DecodeOfEncode := by
  intro i h
  have alone : decode (encode i) 0 = .ok (some i, i.width) := by simpa using decode_encode h [] []
  exact ⟨encodeRecord_record h, encode_length i, alone, decode_encode h⟩

/-- Settles O4: a byte outside the four codes selects no opcode; one of them selects its own, and then only the number
of bytes left decides. -/
theorem illegalEncodings : Obligations.IllegalEncodings := by
  refine ⟨illegal_bytes_length, fun buf off hoff => ⟨?_, fun hbyte => ?_⟩⟩
  · exact fun hbyte => decode_unknown hoff (ofByte_eq_none hbyte)
  · obtain ⟨op, hcode⟩ := mem_codes.mp hbyte
    have hop : Opcode.ofByte (byteAt buf off) = some op := ofByte_eq_some.mpr hcode.symm
    refine ⟨op, hcode, fun hfits => ?_, decode_short hoff hop⟩
    exact ⟨_, opcode_instr op _ _ _, decode_instr hoff hop hfits⟩

end Sys2Proof
end

section
/-! PROOFS. The run of an engine over its program: the normal end, the advance of `pc`, and the instructions of a buffer
executed one after another (spec 41_execution_engine.md R87, R91, R95). -/

namespace Sys2Proof.Machine

/-! ### The branches of a step of a running engine -/

/-- At the end of the buffer (R87). -/
theorem step_at_end {s : State} (hrun : s.status = .running) (hend : s.pc = s.prog.length) :
    step s = .next s.haltNormally := by
  simp [step, hrun, fetch, hend, decode_end]

/-- Where an instruction stands at `pc` (R89). -/
theorem step_of_decode {s : State} {i : Instr} {n : Nat} (hrun : s.status = .running)
    (hdec : decode s.prog s.pc = .ok (some i, n)) : step s = exec i s := by
  simp [step, hrun, fetch, hdec]

/-- The only effect that raises a fault is that of a SQRT of a negative cell (R89, R125). -/
theorem exec_retires {i : Instr} {s : State} (h : ∀ b c d, i = .sqrt b c d → 0 ≤ s.mem.get b) :
    ∃ m, exec i s = .next (s.retire i m) := by
  rcases exec_cases i s with hretire | ⟨b, c, d, rfl, hneg, -⟩
  · exact hretire
  · exact absurd (h b c d rfl) (not_le.mpr hneg)

/-- Of the ways a step of a running engine can end, only the one at the end of the buffer halts it without a fault: an
instruction that retires leaves it running, and every other way records a fault (R87, R126). -/
theorem pc_at_end_of_endedNormally {s t : State} (hrun : s.status = .running) (hstep : step s = .next t)
    (hend : t.EndedNormally) : s.pc = s.prog.length := by
  obtain ⟨hhalted, hnofault⟩ := hend
  rcases step_cases s with ⟨hs, -⟩ | ⟨-, hpc, -⟩ | ⟨e, -, -, h⟩ | ⟨i, -, -, h⟩
  · simp [hrun] at hs
  · exact hpc
  · obtain rfl := next_inj (h.symm.trans hstep)
    simp at hnofault
  · rcases exec_cases i s with ⟨m, hexec⟩ | ⟨b, c, d, -, -, hexec⟩
    · obtain rfl := next_inj (hexec.symm.trans (h.symm.trans hstep))
      simp [hrun] at hhalted
    · obtain rfl := next_inj (hexec.symm.trans (h.symm.trans hstep))
      simp at hnofault

/-! ### The value invariant under every effect (R18) -/

theorem Memory.inRange_empty (n : Nat) : (⟨[], n⟩ : Memory).InRange := by
  intro a
  simp

theorem Memory.inRange_grow {m : Memory} (a : Nat) (h : m.InRange) : (m.grow a).InRange := h

theorem Memory.inRange_write {m : Memory} (a : Nat) {v : Int} (h : m.InRange) (hv : 0 ≤ v ∧ v ≤ 16777215) :
    (m.write a v).InRange := by
  intro b
  rw [Memory.get_write]
  split
  exacts [hv, h b]

theorem inRange_copyCell {m : Memory} (dst src : Nat) (h : m.InRange) : (copyCell dst src m).InRange :=
  Memory.inRange_write dst (Memory.inRange_grow src h) (h src)

theorem inRange_copyCells {m : Memory} (dst src n : Nat) (h : m.InRange) : (copyCells dst src n m).InRange := by
  induction n with
  | zero => exact h
  | succ n ih => exact inRange_copyCell _ _ ih

theorem isqrt_le (n : Nat) : isqrt n ≤ n :=
  (Nat.le_mul_self _).trans (isqrt_spec n).1

/-- While every cell is in range no effect raises a fault, and each keeps every cell in range: an immediate fits three
bytes, a copy moves a value, and a square root is no greater than its operand (R18, R124). -/
theorem exec_retires_inRange {i : Instr} {s : State} (hwf : i.wellFormed = true) (hmem : s.mem.InRange) :
    ∃ m, exec i s = .next (s.retire i m) ∧ m.InRange := by
  cases i with
  | loadConst b c =>
    simp only [Instr.wellFormed, fitsField, Bool.and_eq_true, decide_eq_true_eq] at hwf
    obtain ⟨-, hc⟩ := hwf
    exact ⟨_, execLoadConst_eq b c s, Memory.inRange_write b hmem (by omega)⟩
  | loadMem b c d => exact ⟨_, execLoadMem_eq b c d s, inRange_copyCells b d c hmem⟩
  | store b c => exact ⟨_, execStore_eq b c s, inRange_copyCell c b hmem⟩
  | sqrt b c d =>
    obtain ⟨hnonneg, hle⟩ := hmem b
    have hroot := isqrt_le (s.mem.get b).toNat
    exact ⟨_, execSqrt_of_nonneg c d hnonneg, Memory.inRange_write d (Memory.inRange_grow b hmem) (by omega)⟩

/-! ### The instructions of a buffer, one step each -/

@[simp] theorem assemble_nil : assemble [] = [] := rfl

@[simp] theorem assemble_cons (i : Instr) (is : List Instr) : assemble (i :: is) = encode i ++ assemble is := rfl

/-- The instructions that stand one after another at `pc` of a running engine take one step each, in their order, and
leave it running behind the last of them; a longer run goes on from there (R43, R95). -/
theorem runSteps_assemble {is : List Instr} {before after : List Byte} {s : State}
    (hwf : ∀ i ∈ is, i.wellFormed = true) (hprog : s.prog = before ++ assemble is ++ after)
    (hpc : s.pc = before.length) (hrun : s.status = .running) (hmem : s.mem.InRange) :
    ∃ t, (∀ n, runSteps (is.length + n) s = runSteps n t) ∧ execAll is s = .next t ∧ t.status = .running ∧
      t.fault = s.fault ∧ t.prog = s.prog ∧ t.pc = before.length + (assemble is).length := by
  induction is generalizing before s with
  | nil => exact ⟨s, by simp, execAll_nil s, hrun, rfl, rfl, by simp [hpc]⟩
  | cons i is ih =>
    obtain ⟨hi, his⟩ := List.forall_mem_cons.mp hwf
    have hdec : decode s.prog s.pc = .ok (some i, before.length + i.width) := by
      rw [hprog, hpc]
      simpa using decode_encode hi before (assemble is ++ after)
    obtain ⟨m, hexec, hm⟩ := exec_retires_inRange hi hmem
    have hstep : step s = .next (s.retire i m) := (step_of_decode hrun hdec).trans hexec
    obtain ⟨t, hrest, hall, hstatus, hfault, hkeep, hend⟩ := ih (before := before ++ encode i)
      (s := s.retire i m) his (by simp [hprog]) (by simp [hpc, encode_length]) hrun hm
    refine ⟨t, fun n => ?_, (execAll_cons hexec is).trans hall, hstatus, hfault, hkeep, ?_⟩
    · calc runSteps ((i :: is).length + n) s
          = runSteps (is.length + n + 1) s := by rw [List.length_cons, Nat.add_right_comm]
        _ = runSteps (is.length + n) (s.retire i m) := runSteps_running hrun hstep _
        _ = runSteps n t := hrest n
    · simpa [Nat.add_assoc] using hend

/-! ### The statements -/

/-- Settles O25: the three clauses are the step at the end, the inversion of a step that ends normally, and the run over
the whole buffer by `runSteps_assemble`, from whose last state the step at the end is one more. -/
theorem normalEnd : Obligations.NormalEnd := by
  refine ⟨fun s hrun hend => step_at_end hrun hend,
    fun s t hrun _ hstep hnormal => pc_at_end_of_endedNormally hrun hstep hnormal, fun is n tr hwf => ?_⟩
  obtain ⟨t, hsteps, -, hrun, hfault, hprog, hpc⟩ :=
    runSteps_assemble (before := []) (after := []) (s := State.resetWith (assemble is) n tr) hwf
      (by simp) rfl rfl (Memory.inRange_empty n)
  have hpcEnd : t.pc = (assemble is).length := by simpa using hpc
  have hhalt : step t = .next t.haltNormally := step_at_end hrun (by rw [hpcEnd, hprog, State.resetWith_prog])
  have hlast : runSteps (is.length + 1) (State.resetWith (assemble is) n tr) = .next t.haltNormally := by
    rw [hsteps 1, runSteps_running hrun hhalt, runSteps_zero]
  exact ⟨t, t.haltNormally, hsteps 0, hrun, hpcEnd, hlast, ⟨rfl, hfault⟩, hpcEnd⟩

/-- Settles O27: an effect without a fault retires its instruction, which advances `pc` by the width and leaves the
status alone. -/
theorem pcAdvancesByTheWidth : Obligations.PcAdvancesByTheWidth := by
  intro s i n hrun hdec hnonneg
  obtain ⟨-, rfl⟩ := decode_ok_some hdec
  obtain ⟨m, hexec⟩ := exec_retires hnonneg
  have hstep : step s = .next (s.retire i m) := (step_of_decode hrun hdec).trans hexec
  refine ⟨s.retire i m, hstep, rfl, ?_, hrun, fun hend => step_at_end hrun hend⟩
  cases i <;> rfl

end Sys2Proof.Machine
end

section
/-! PROOFS. The floor square root: it is the library's natural square root, whose laws it inherits, and each of its values
is the root between whose two squares the argument lies (spec 43_sqrt.md R110). -/

namespace Sys2Proof.Machine

/-- The digits of R110 compute the library's natural square root, since both have the same defining bounds. -/
theorem isqrt_eq_sqrt (n : Nat) : isqrt n = n.sqrt :=
  Nat.eq_sqrt.mpr (isqrt_spec n)

/-- The bounds of R110 determine the root. -/
theorem eq_isqrt_iff {n r : Nat} : r = isqrt n ↔ r * r ≤ n ∧ n < (r + 1) * (r + 1) := by
  rw [isqrt_eq_sqrt, Nat.eq_sqrt]

/-- A value of the root is given by its two bounds. -/
theorem isqrt_eq_of_bounds {n r : Nat} (hle : r * r ≤ n) (hlt : n < (r + 1) * (r + 1)) : isqrt n = r :=
  (eq_isqrt_iff.mpr ⟨hle, hlt⟩).symm

theorem isqrt_mono {m n : Nat} (h : m ≤ n) : isqrt m ≤ isqrt n := by
  simpa only [isqrt_eq_sqrt] using Nat.sqrt_le_sqrt h

theorem isqrt_lt_self {n : Nat} (h : 1 < n) : isqrt n < n :=
  isqrt_eq_sqrt n ▸ Nat.sqrt_lt_self h

theorem isqrt_zero : isqrt 0 = 0 := isqrt_eq_of_bounds (by decide) (by decide)

theorem isqrt_one : isqrt 1 = 1 := isqrt_eq_of_bounds (by decide) (by decide)

/-- The fixed points: from 2 on the root is strictly below its argument. -/
theorem isqrt_eq_self_iff {n : Nat} : isqrt n = n ↔ n = 0 ∨ n = 1 := by
  constructor
  · intro hfix
    have hsmall : ¬ 1 < n := fun h => (isqrt_lt_self h).ne hfix
    omega
  · rintro (rfl | rfl)
    exacts [isqrt_zero, isqrt_one]

/-- Settles O20: the laws from the library's square root, and each listed value from its two bounds. -/
theorem isqrtIsTheFloorSquareRoot : Obligations.IsqrtIsTheFloorSquareRoot := by
  refine ⟨fun _ _ => eq_isqrt_iff, isqrt_le, fun _ _ => isqrt_mono, fun _ => isqrt_eq_self_iff,
    ?_, isqrt_zero, isqrt_one, ?_, ?_, ?_, ?_, ?_, ?_, ?_, ?_⟩
  all_goals exact isqrt_eq_of_bounds (by norm_num) (by norm_num)

end Sys2Proof.Machine
end

section
/-! PROOFS. The converse law of the codec, and which outcome `Decode` and `Encode` have on every input
(spec 30_encoding.md R59, R65; 40_codec.md R71 to R81). -/

namespace Sys2Proof

/-! ### The bytes behind a decoded instruction -/

theorem ofByte_eq_some_iff_eq {a : Byte} {op : Opcode} :
    Opcode.ofByte a = some op ↔ a = BitVec.ofNat 8 op.code := by
  refine ⟨fun h => ?_, fun h => h ▸ ofByte_code op⟩
  rw [← ofByte_eq_some.mp h, BitVec.ofNat_toNat, BitVec.setWidth_eq]

theorem take_drop_eq_byteAt_cons {buf : List Byte} {off : Nat} (h : off < buf.length) (n : Nat) :
    (buf.drop off).take (1 + n) = byteAt buf off :: (buf.drop (off + 1)).take n := by
  rw [List.drop_eq_getElem_cons h, Nat.add_comm, List.take_succ_cons, byteAt, List.getD_eq_getElem buf 0 h]

/-- Writing a fetched field again gives the bytes it was fetched from (R7, R80). -/
theorem leBytes_fetchField {buf : List Byte} {off n : Nat} (h : off + n ≤ buf.length) :
    leBytes n (fetchField buf off n) = (buf.drop off).take n := by
  have hlen : ((buf.drop off).take n).length = n := by simp; omega
  calc leBytes n (fetchField buf off n)
      = leBytes ((buf.drop off).take n).length (leValue ((buf.drop off).take n)) := by rw [hlen, fetchField]
    _ = (buf.drop off).take n := leBytes_leValue _

/-- Operands that fit their fields make a well-formed instruction, the converse of `exists_operands` (R50, R53). -/
theorem wellFormed_instr {op : Opcode} {b c d : Nat} (hb : b < 256 ^ op.layout.bWidth)
    (hc : c < 256 ^ op.layout.cWidth) (hd : d < 256 ^ op.layout.dWidth.getD 0) :
    (op.instr b c d).wellFormed = true := by
  cases op <;> simp_all [Opcode.instr, Instr.wellFormed, fitsField, Opcode.layout]

/-- Where `Decode` answers an instruction, the byte at the offset is the opcode and the operands are the fields behind
it (R52, R74). -/
theorem fields_of_decode {buf : List Byte} {off n : Nat} {i : Instr} (h : decode buf off = .ok (some i, n)) :
    ∃ op, Opcode.ofByte (byteAt buf off) = some op ∧
      i = op.instr (fetchField buf (off + 1) op.layout.bWidth)
        (fetchField buf (off + 1 + op.layout.bWidth) op.layout.cWidth)
        (fetchField buf (off + 1 + op.layout.bWidth + op.layout.cWidth) (op.layout.dWidth.getD 0)) := by
  rcases decode_cases buf off with ⟨-, h'⟩ | ⟨-, h'⟩ | ⟨-, -, h'⟩ | ⟨op, -, -, -, h'⟩ | ⟨op, -, hop, -, h'⟩
  case inr.inr.inr.inr =>
    rw [h] at h'
    simp only [Except.ok.injEq, Prod.mk.injEq, Option.some.injEq] at h'
    exact ⟨op, hop, h'.1⟩
  all_goals simp [h] at h'

theorem wellFormed_of_decode {buf : List Byte} {off n : Nat} {i : Instr} (h : decode buf off = .ok (some i, n)) :
    i.wellFormed = true := by
  obtain ⟨op, -, rfl⟩ := fields_of_decode h
  exact wellFormed_instr (fetchField_lt _ _ _) (fetchField_lt _ _ _) (fetchField_lt _ _ _)

/-- A decoded instruction encodes to the bytes it was decoded from (R80). -/
theorem encode_of_decode {buf : List Byte} {off n : Nat} {i : Instr} (h : decode buf off = .ok (some i, n)) :
    encode i = (buf.drop off).take i.width := by
  obtain ⟨hle, -⟩ := decode_ok_some h
  obtain ⟨op, hop, rfl⟩ := fields_of_decode h
  rw [width_instr] at hle ⊢
  simp only [Layout.width] at hle ⊢
  rw [encode_instr, leBytes_fetchField (by omega), leBytes_fetchField (by omega), leBytes_fetchField (by omega),
    ← ofByte_eq_some_iff_eq.mp hop, Nat.add_assoc 1, Nat.add_assoc 1, take_drop_eq_byteAt_cons (by omega),
    List.take_add, List.take_add, List.drop_drop, List.drop_drop, Nat.add_assoc (off + 1)]

/-- Where an instruction is decoded, its bytes and the rest of the buffer stand from that offset on (R80). -/
theorem drop_of_decode {buf : List Byte} {off n : Nat} {i : Instr} (h : decode buf off = .ok (some i, n)) :
    buf.drop off = encode i ++ buf.drop n := by
  obtain ⟨-, rfl⟩ := decode_ok_some h
  rw [encode_of_decode h, ← List.drop_drop, List.take_append_drop]

/-! ### One instruction for each byte string -/

/-- Decoding is decided by the bytes that begin the buffer, so no encoding begins another one (R59). -/
theorem eq_of_encode_append_eq {i j : Instr} {rest : List Byte} (hi : i.wellFormed = true)
    (hj : j.wellFormed = true) (h : encode i ++ rest = encode j) : i = j := by
  have hdeci : decode (encode j) 0 = .ok (some i, i.width) := by simpa [h] using decode_encode hi [] rest
  have hdecj : decode (encode j) 0 = .ok (some j, j.width) := by simpa using decode_encode hj [] []
  simp only [hdeci, Except.ok.injEq, Prod.mk.injEq, Option.some.injEq] at hdecj
  exact hdecj.1

theorem encode_injective {i j : Instr} (hi : i.wellFormed = true) (hj : j.wellFormed = true)
    (h : encode i = encode j) : i = j :=
  eq_of_encode_append_eq (rest := []) hi hj (by simpa using h)

theorem code_injective : Function.Injective Opcode.code := by
  intro o o' h
  have hsome : Opcode.ofInt o.code = some o' := ofInt_eq_some.mpr (by rw [h])
  simpa [ofInt_eq_some.mpr rfl] using hsome

/-- Settles O2: `encode_of_decode` in both directions; the one instruction of a byte string is the one it decodes to. -/
theorem encodeOfDecode : Obligations.EncodeOfDecode := by
  refine ⟨fun buf off n i h => ?_, fun l op hop hlen => ?_⟩
  · have hwf := wellFormed_of_decode h
    obtain ⟨-, rfl⟩ := decode_ok_some h
    refine ⟨hwf, ?_⟩
    rw [encodeRecord_record hwf, encode_of_decode h, Nat.add_sub_cancel_left]
  · have hpos : 0 < op.layout.width := by simp only [Layout.width]; omega
    have hdec := decode_instr (buf := l) (off := 0) (by omega) hop (by omega)
    have hbytes := encode_of_decode hdec
    rw [width_instr, List.drop_zero, ← hlen, List.take_length] at hbytes
    refine ⟨_, ⟨wellFormed_of_decode hdec, hbytes⟩, fun j ⟨hj, hjbytes⟩ => ?_⟩
    exact encode_injective hj (wellFormed_of_decode hdec) (hjbytes.trans hbytes.symm)

/-- Settles O3: the clauses are the cases of `decode_cases`, each with its own lemma. -/
theorem decodeOutcomes : Obligations.DecodeOutcomes := by
  intro buf off
  refine ⟨fun h => h ▸ decode_end buf, decode_past, fun hoff => ⟨decode_unknown hoff, fun op hop => ?_⟩⟩
  refine ⟨decode_short hoff hop, fun hfits => ?_⟩
  have hdec := decode_instr hoff hop hfits
  exact ⟨_, opcode_instr op _ _ _, wellFormed_of_decode hdec, hdec⟩

/-- Settles O7: the opcode bytes are told apart by `Opcode.ofInt`, the instructions by `Decode`. -/
theorem encodingsPrefixFree : Obligations.EncodingsPrefixFree := by
  refine ⟨fun o o' h => code_injective h, fun i j hi hj ⟨rest, h⟩ => ?_⟩
  exact eq_of_encode_append_eq hi hj h

/-! ### `Encode` on integers and absent operands -/

theorem encodeFields_unknown {a : Int} (h : a ∉ [17, 19, 24, 28]) (b c d : Option Int) :
    encodeFields a b c d = .error .unknownOpcode := by
  have hnone : Opcode.ofInt a = none := by
    rw [Option.eq_none_iff_forall_ne_some]
    rintro op hop
    cases op <;> simp [ofInt_eq_some.mp hop, Opcode.code] at h
  simp [encodeFields, hnone]

/-- An operand outside its field is refused, in whichever of the three fields it stands (R73). -/
theorem encodeFields_invalid {op : Opcode} {b c d : Option Int}
    (h : ¬ (inField op.layout.bWidth (b.getD 0) = true ∧ inField op.layout.cWidth (c.getD 0) = true ∧
      inOptionalField op.layout.dWidth (d.getD 0) = true)) :
    encodeFields op.code b c d = .error .invalidOperand := by
  have hop : Opcode.ofInt op.code = some op := ofInt_eq_some.mpr rfl
  simp only [encodeFields, hop]
  split_ifs with hb hc hd
  · rfl
  · rfl
  · rfl
  · simp_all

theorem inField_iff {w : Nat} {v : Int} : inField w v = true ↔ 0 ≤ v ∧ v < 256 ^ w := by
  simp [inField]

theorem inOptionalField_iff {w : Option Nat} {v : Int} :
    inOptionalField w v = true ↔ ∀ n, w = some n → 0 ≤ v ∧ v < 256 ^ n := by
  cases w with
  | none => simp [inOptionalField]
  | some n => simp [inOptionalField, inField_iff]

/-- Where the layout has no D, no D that is given changes what `Encode` answers (R72). -/
theorem encodeFields_drops_d {op : Opcode} (h : op.layout.dWidth = none) (b c d d' : Option Int) :
    encodeFields op.code b c d = encodeFields op.code b c d' := by
  have hop : Opcode.ofInt op.code = some op := ofInt_eq_some.mpr rfl
  simp [encodeFields, hop, h, inOptionalField, optionalFieldBytes]

/-- Settles O5: whether the operands fit is what the three checks of `Encode` test. -/
theorem encodeOutcomes : Obligations.EncodeOutcomes := by
  intro a b c d
  refine ⟨fun h => encodeFields_unknown h b c d, ?_⟩
  rintro op rfl fits
  have hchecks : fits ↔ inField op.layout.bWidth (b.getD 0) = true ∧ inField op.layout.cWidth (c.getD 0) = true ∧
      inOptionalField op.layout.dWidth (d.getD 0) = true := by
    rw [inField_iff, inField_iff, inOptionalField_iff]
  rw [hchecks]
  exact ⟨fun ⟨hb, hc, hd⟩ => encodeFields_ok hb hc hd, encodeFields_invalid⟩

/-- Settles O6: an absent operand is read as `getD 0`, as is a given 0; LOAD_CONST and STORE have no D field. -/
theorem operandDefaulting : Obligations.OperandDefaulting := by
  intro a b c d d'
  refine ⟨rfl, rfl, rfl, ?_, ?_⟩
  · exact encodeFields_drops_d (op := .loadConst) rfl b c d d'
  · exact encodeFields_drops_d (op := .store) rfl b c d d'

/-- Settles O8: fixed bytes, evaluated. -/
theorem knownWordsDecode : Obligations.KnownWordsDecode := by
  unfold Obligations.KnownWordsDecode
  decide

end Sys2Proof
end

section
/-! PROOFS. Memory under the effects of the instructions: the closed form of a block copy, and the result and the frame of
each instruction (spec 42_data_movement.md R101 to R106; 43_sqrt.md R111 to R113). -/

namespace Sys2Proof.Machine

/-! ### Block copies -/

/-- A copy of `m + n` cells is the copy of the first `m` and then of the other `n` (R103). -/
theorem copyCells_add (dst src m n : Nat) (mem : Memory) :
    copyCells dst src (m + n) mem = copyCells (dst + m) (src + m) n (copyCells dst src m mem) := by
  induction n with
  | zero => rfl
  | succ n ih => rw [← Nat.add_assoc, copyCells_succ, copyCells_succ, ih, Nat.add_assoc, Nat.add_assoc]

theorem copyCells_one (dst src : Nat) (m : Memory) : copyCells dst src 1 m = copyCell dst src m := rfl

/-- Cells outside the destination are left alone (R103). -/
theorem get_copyCells_outside {dst n a : Nat} (src : Nat) (m : Memory) (h : a < dst ∨ dst + n ≤ a) :
    (copyCells dst src n m).get a = m.get a := by
  induction n with
  | zero => rfl
  | succ n ih =>
    rw [copyCells_succ, get_copyCell, if_neg (by omega)]
    exact ih (by omega)

/-- The cell a copy of `n` cells has written last (R103). -/
theorem get_copyCells_last (dst src n : Nat) (m : Memory) :
    (copyCells dst src (n + 1) m).get (dst + n) = (copyCells dst src n m).get (src + n) := by
  rw [copyCells_succ, get_copyCell, if_pos rfl]

/-- A cell once written is not written again (R103). -/
theorem get_copyCells_succ_of_lt {dst n j : Nat} (src : Nat) (m : Memory) (h : j < n) :
    (copyCells dst src (n + 1) m).get (dst + j) = (copyCells dst src n m).get (dst + j) := by
  rw [copyCells_succ, get_copyCell, if_neg (by omega)]

/-- From a source that does not lie below the destination each cell is read before a write can reach it (R104). -/
theorem get_copyCells_of_le {dst src n j : Nat} (m : Memory) (h : dst ≤ src) (hj : j < n) :
    (copyCells dst src n m).get (dst + j) = m.get (src + j) := by
  induction n with
  | zero => omega
  | succ n ih =>
    rcases Nat.lt_succ_iff_lt_or_eq.mp hj with hlt | rfl
    · rw [get_copyCells_succ_of_lt src m hlt, ih hlt]
    · rw [get_copyCells_last, get_copyCells_outside src m (by omega)]

/-- From a source below the destination the first `dst - src` cells repeat: past them the copy reads what it has itself
written, that many cells further back (R104). -/
theorem get_copyCells_of_lt {dst src n j : Nat} (m : Memory) (h : src < dst) (hj : j < n) :
    (copyCells dst src n m).get (dst + j) = m.get (src + j % (dst - src)) := by
  induction n generalizing j with
  | zero => omega
  | succ n ih =>
    rcases Nat.lt_succ_iff_lt_or_eq.mp hj with hlt | rfl
    · rw [get_copyCells_succ_of_lt src m hlt, ih hlt]
    · rw [get_copyCells_last]
      by_cases hfirst : j < dst - src
      · rw [get_copyCells_outside src m (by omega), Nat.mod_eq_of_lt hfirst]
      · have hback : src + j = dst + (j - (dst - src)) := by omega
        rw [hback, ih (by omega), ← Nat.mod_eq_sub_mod (not_lt.mp hfirst)]

/-- Both closed forms of R104 in one; a source that ends where the destination begins repeats nothing. -/
theorem get_copyCells_inside {dst src n j : Nat} (m : Memory) (hj : j < n) :
    (copyCells dst src n m).get (dst + j) =
      if dst ≤ src ∨ src + n ≤ dst then m.get (src + j) else m.get (src + j % (dst - src)) := by
  rcases Nat.lt_or_ge src dst with hlt | hle
  · rw [get_copyCells_of_lt m hlt hj]
    split
    · rw [Nat.mod_eq_of_lt (by omega)]
    · rfl
  · rw [get_copyCells_of_le m hle hj, if_pos (.inl hle)]

/-- A copy of at least one cell grows Memory to hold both ranges (R33, R103). -/
theorem len_copyCells (dst src n : Nat) (m : Memory) :
    (copyCells dst src n m).len = if n = 0 then m.len else max m.len (max (src + n) (dst + n)) := by
  induction n with
  | zero => rfl
  | succ n ih =>
    rw [copyCells_succ, len_copyCell, ih, if_neg n.succ_ne_zero]
    split <;> omega

/-! ### What the end of an instruction does beside its effect on Memory -/

theorem State.retire_frame (s : State) (i : Instr) (m : Memory) :
    (s.retire i m).pc = s.pc + i.width ∧ (s.retire i m).status = s.status ∧ (s.retire i m).fault = s.fault ∧
    (s.retire i m).faultPc = s.faultPc ∧ s.SameConfig (s.retire i m) ∧ (s.retire i m).trace = s.traceWith i :=
  ⟨rfl, rfl, rfl, rfl, ⟨rfl, rfl, rfl⟩, rfl⟩

/-! ### The statements -/

/-- Settles O12: one write of the immediate. -/
theorem loadConstResult : Obligations.LoadConstResult := by
  intro b c s
  refine ⟨_, execLoadConst_eq b c s, ?_, fun a ha => ?_, ?_, State.retire_frame s _ _⟩
  · simp
  · simp [ha]
  · simp

/-- Settles O13: the cells and the length by the closed form of `copyCells`. -/
theorem loadMemResult : Obligations.LoadMemResult := by
  intro b c d s
  refine ⟨_, execLoadMem_eq b c d s, fun j hj => ?_, fun a ha => ?_, ?_, State.retire_frame s _ _⟩
  · exact get_copyCells_inside s.mem hj
  · exact get_copyCells_outside d s.mem ha
  · exact len_copyCells b d c s.mem

/-- Settles O14: the loop by its counts, `copyCells_add` for a count that is cut in two. -/
theorem loadMemCopiesInAscendingOrder : Obligations.LoadMemCopiesInAscendingOrder := by
  refine ⟨fun b d s => ?_, fun b d s => ?_, fun b m n d s => ?_⟩
  · exact ⟨_, execLoadMem_eq b 0 d s, copyCells_zero b d s.mem⟩
  · exact ⟨_, execLoadMem_eq b 1 d s, copyCells_one b d s.mem⟩
  · exact ⟨_, _, _, execLoadMem_eq b m d s, execLoadMem_eq (b + m) n (d + m) _, execLoadMem_eq b (m + n) d s,
      copyCells_add b d m n s.mem⟩

/-- Settles O15: one read and one write. -/
theorem storeResult : Obligations.StoreResult := by
  intro b c s
  refine ⟨_, execStore_eq b c s, ?_, fun a ha => ?_, ?_, State.retire_frame s _ _⟩
  · simp
  · simp [ha]
  · simp [max_assoc]

/-- Settles O16: `copyCells` of one cell is `copyCell`; the encodings differ in their length. -/
theorem storeIsOneCellLoadMem : Obligations.StoreIsOneCellLoadMem := by
  intro src dst s
  have hencode : encode (.store src dst) ≠ encode (.loadMem dst 1 src) := by
    intro h
    have hlen := congrArg List.length h
    simp [encode_length] at hlen
  exact ⟨_, _, execStore_eq src dst s, execLoadMem_eq dst 1 src s, (copyCells_one dst src s.mem).symm, hencode,
    rfl, rfl, rfl, rfl⟩

/-- The bounds of R110 over the integers, for a value that is not negative. -/
theorem isqrt_spec_int {v : Int} (h : 0 ≤ v) :
    (isqrt v.toNat : Int) * isqrt v.toNat ≤ v ∧ v < ((isqrt v.toNat : Int) + 1) * (isqrt v.toNat + 1) := by
  obtain ⟨n, rfl⟩ := Int.eq_ofNat_of_zero_le h
  rw [Int.toNat_natCast]
  exact_mod_cast isqrt_spec n

/-- Settles O17: one read, then one write of the root. -/
theorem sqrtResult : Obligations.SqrtResult := by
  intro b c d s h
  obtain ⟨hle, hlt⟩ := isqrt_spec_int h
  refine ⟨_, _, execSqrt_of_nonneg c d h, hle, hlt, ?_, fun a ha => ?_, ?_, State.retire_frame s _ _⟩
  · simp
  · simp [ha]
  · simp [max_assoc]

/-- Settles O18: the fault entry after the read. -/
theorem sqrtOfNegativeRaisesDomainError : Obligations.SqrtOfNegativeRaisesDomainError := by
  intro b c d s h
  exact ⟨_, execSqrt_of_neg c d h, rfl, rfl, rfl, rfl, Memory.cells_grow s.mem b, Memory.len_grow s.mem b,
    ⟨rfl, rfl, rfl⟩, rfl⟩

/-- Settles O19: neither branch of SQRT uses the reserved field for anything but the event. -/
theorem sqrtIgnoresItsReservedField : Obligations.SqrtIgnoresItsReservedField := by
  intro b c c' d s
  by_cases h : s.mem.get b < 0
  · exact ⟨_, _, execSqrt_of_neg c d h, execSqrt_of_neg c' d h, rfl⟩
  · have hnonneg := not_lt.mp h
    exact ⟨_, _, execSqrt_of_nonneg c d hnonneg, execSqrt_of_nonneg c' d hnonneg, rfl⟩

end Sys2Proof.Machine
end

section
/-! PROOFS. Repeated square roots (spec 43_sqrt.md R112). -/

namespace Sys2Proof.Machine

/-- A value that is not 0 comes down to 1, since each root is smaller and none of them is 0 (R112). -/
theorem exists_iterate_isqrt_eq_one {n : Nat} (h : 1 ≤ n) : ∃ k, isqrt^[k] n = 1 := by
  induction n using Nat.strong_induction_on with
  | _ n ih =>
    rcases Nat.eq_or_lt_of_le h with rfl | hlt
    · exact ⟨0, rfl⟩
    · have hpos : 1 ≤ isqrt n := isqrt_one ▸ isqrt_mono h
      obtain ⟨k, hk⟩ := ih (isqrt n) (isqrt_lt_self hlt) hpos
      exact ⟨k + 1, hk⟩

/-- Settles O21: once at 1, the roots stay there. -/
theorem repeatedIsqrtReachesOne : Obligations.RepeatedIsqrtReachesOne := by
  refine ⟨isqrt_zero, isqrt_one, fun n hn => ?_⟩
  obtain ⟨k, hk⟩ := exists_iterate_isqrt_eq_one (Nat.le_of_succ_le hn)
  refine ⟨k, fun j hj => ?_⟩
  obtain ⟨i, rfl⟩ := Nat.exists_eq_add_of_le' hj
  rw [Function.iterate_add_apply, hk, Function.iterate_fixed isqrt_one]

end Sys2Proof.Machine
end

section
/-! PROOFS. The step: which states it leads to, and what follows for halting, faults, the trace and what no step writes
(spec 41_execution_engine.md R86 to R97; 60_exceptions.md R126 to R128). -/

namespace Sys2Proof.Machine

/-! ### The effect of an instruction on Memory -/

/-- Memory after an instruction that retires. -/
def memAfter : Instr → Memory → Memory
  | .loadConst b c, m => m.write b c
  | .loadMem b c d, m => copyCells b d c m
  | .store b c, m => copyCell c b m
  | .sqrt b _ d, m => (m.grow b).write d (isqrt (m.get b).toNat)

/-- `memAfter` is what `exec` leaves, but for a SQRT of a negative cell (R89). -/
theorem exec_eq_retire {i : Instr} {s : State} (h : ∀ b c d, i = .sqrt b c d → 0 ≤ s.mem.get b) :
    exec i s = .next (s.retire i (memAfter i s.mem)) := by
  cases i with
  | loadConst b c => exact execLoadConst_eq b c s
  | loadMem b c d => exact execLoadMem_eq b c d s
  | store b c => exact execStore_eq b c s
  | sqrt b c d => exact execSqrt_of_nonneg c d (h b c d rfl)

/-! ### Where a step leads -/

/-- The states a step can lead to, one constructor for each way to take it: a halted engine, the end of the buffer, a
failed decode, an instruction that retires, a SQRT of a negative cell (R86 to R91, R97, R113). -/
inductive Transition (s : State) : State → Prop
  | halted (hhalt : s.status = .halted) : Transition s s
  | ended (hrun : s.status = .running) (hend : s.pc = s.prog.length) : Transition s s.haltNormally
  | undecoded {e : DecodeError} (hrun : s.status = .running) (hdec : decode s.prog s.pc = .error e) :
      Transition s (s.raise (engineFaultOf e) s.pc)
  | retired {i : Instr} (hrun : s.status = .running) (hdec : decode s.prog s.pc = .ok (some i, s.pc + i.width))
      (hnonneg : ∀ b c d, i = .sqrt b c d → 0 ≤ s.mem.get b) : Transition s (s.retire i (memAfter i s.mem))
  | trapped {b c d : Nat} (hrun : s.status = .running)
      (hdec : decode s.prog s.pc = .ok (some (.sqrt b c d), s.pc + 9)) (hneg : s.mem.get b < 0) :
      Transition s (s.trap (.sqrt b c d) .domainError (s.mem.grow b))

/-- A halted engine stays as it is (R97). -/
theorem step_halted {s : State} (h : s.status = .halted) : step s = .next s := by
  simp [step, h]

/-- Where no instruction can be decoded (R88). -/
theorem step_of_decode_error {s : State} {e : DecodeError} (hrun : s.status = .running)
    (hdec : decode s.prog s.pc = .error e) : step s = .next (s.raise (engineFaultOf e) s.pc) := by
  simp [step, hrun, fetch, hdec]

theorem Transition.step_eq {s t : State} (h : Transition s t) : step s = .next t := by
  cases h with
  | halted hhalt => exact step_halted hhalt
  | ended hrun hend => exact step_at_end hrun hend
  | undecoded hrun hdec => exact step_of_decode_error hrun hdec
  | retired hrun hdec hnonneg => exact (step_of_decode hrun hdec).trans (exec_eq_retire hnonneg)
  | @trapped b c d hrun hdec hneg => exact (step_of_decode hrun hdec).trans (execSqrt_of_neg c d hneg)

/-- Every state has a next one (R46). -/
theorem exists_transition (s : State) : ∃ t, Transition s t := by
  rcases step_cases s with ⟨hhalt, -⟩ | ⟨hrun, hend, -⟩ | ⟨e, hrun, hdec, -⟩ | ⟨i, hrun, hdec, -⟩
  · exact ⟨_, .halted hhalt⟩
  · exact ⟨_, .ended hrun hend⟩
  · exact ⟨_, .undecoded hrun hdec⟩
  · by_cases hnonneg : ∀ b c d, i = .sqrt b c d → 0 ≤ s.mem.get b
    · exact ⟨_, .retired hrun hdec hnonneg⟩
    · push Not at hnonneg
      obtain ⟨b, c, d, rfl, hneg⟩ := hnonneg
      exact ⟨_, .trapped hrun hdec hneg⟩

/-- A step leads where `Transition` says and nowhere else (R86). -/
theorem step_eq_next_iff {s t : State} : step s = .next t ↔ Transition s t := by
  refine ⟨fun h => ?_, Transition.step_eq⟩
  obtain ⟨u, hu⟩ := exists_transition s
  exact next_inj (hu.step_eq.symm.trans h) ▸ hu

/-! ### Where `pc` stands when a step faults or executes -/

theorem pc_lt_of_decode_some {s : State} {i : Instr} {n : Nat} (h : decode s.prog s.pc = .ok (some i, n)) :
    s.pc < s.prog.length := by
  obtain ⟨hle, -⟩ := decode_ok_some h
  obtain ⟨hwidth, -⟩ := width_bounds i
  omega

theorem pc_ne_of_decode_error {s : State} {e : DecodeError} (h : decode s.prog s.pc = .error e) :
    s.pc ≠ s.prog.length := by
  intro hend
  simp [hend, decode_end] at h

theorem engineFaultOf_ne_domainError (e : DecodeError) : engineFaultOf e ≠ .domainError := by
  cases e <;> simp [engineFaultOf]

/-! ### The statements about one step -/

/-- Settles O22: `decode_ok_some` gives the width, `wellFormed_of_decode` the operands. -/
theorem stepRunsTheDecodedInstruction : Obligations.StepRunsTheDecodedInstruction := by
  intro s i n hrun hdec
  obtain ⟨hle, rfl⟩ := decode_ok_some hdec
  exact ⟨wellFormed_of_decode hdec, rfl, hle, step_of_decode hrun hdec⟩

/-- Settles O23: an instruction retires or traps, and a step takes one of its transitions. -/
theorem everyStateHasANextState : Obligations.EveryStateHasANextState := by
  refine ⟨fun i s => ?_, fun s => ?_⟩
  · rcases exec_cases i s with ⟨m, hexec⟩ | ⟨b, c, d, -, -, hexec⟩
    · exact ⟨_, hexec⟩
    · exact ⟨_, hexec⟩
  · obtain ⟨t, ht⟩ := exists_transition s
    exact ⟨t, ht.step_eq⟩

/-- Settles O24: neither `step` nor `runSteps` goes on from a halted engine. -/
theorem haltedEngineNeverChanges : Obligations.HaltedEngineNeverChanges := by
  intro s h
  exact ⟨step_halted h, runSteps_halted h, runSteps_halted h _⟩

/-- Settles O26: `raise` at `pc`, for each of the two errors. -/
theorem decodeFailureRaisesItsFault : Obligations.DecodeFailureRaisesItsFault := by
  intro s hrun
  exact ⟨step_of_decode_error hrun, step_of_decode_error hrun⟩

/-- Settles O28: at the end the fault register is left alone; the faulting transitions stand before or past the end; an
instruction that retires leaves the engine running. -/
theorem stepHaltsInExactlyTwoCases : Obligations.StepHaltsInExactlyTwoCases := by
  intro s t hrun hnofault hstep
  cases step_eq_next_iff.mp hstep with
  | halted hhalt => simp [hrun] at hhalt
  | ended _ hend => simp [hend, hnofault]
  | undecoded _ hdec => simp [pc_ne_of_decode_error hdec]
  | retired _ hdec _ => simp [hrun, hnofault, (pc_lt_of_decode_some hdec).ne]
  | trapped _ hdec _ => simp [(pc_lt_of_decode_some hdec).ne]

/-- Settles O29: only a failed decode and a trapped SQRT record a fault, and what `Decode` answered tells the kinds
apart. -/
theorem faultsArePrecise : Obligations.FaultsArePrecise := by
  intro s t k hrun hnofault hstep hfault
  cases step_eq_next_iff.mp hstep with
  | halted _ => simp [hnofault] at hfault
  | ended _ _ => simp [hnofault] at hfault
  | retired _ _ _ => simp [hnofault] at hfault
  | @undecoded e _ hdec =>
    obtain rfl : engineFaultOf e = k := by simpa using hfault
    refine ⟨rfl, rfl, rfl, rfl, ⟨rfl, rfl, rfl⟩, ?_, ?_, ?_, fun _ => ⟨rfl, rfl⟩, ?_⟩
    · cases e <;> simp [hdec, engineFaultOf]
    · cases e <;> simp [hdec, engineFaultOf]
    · simp [hdec, engineFaultOf_ne_domainError]
    · simp [hdec]
  | @trapped b c d _ hdec hneg =>
    obtain rfl : EngineFault.domainError = k := by simpa using hfault
    refine ⟨rfl, rfl, rfl, rfl, ⟨rfl, rfl, rfl⟩, by simp [hdec], by simp [hdec],
      ⟨fun _ => ⟨b, c, d, _, hdec, hneg⟩, fun _ => rfl⟩, by simp, fun b' c' d' n hdec' => ?_⟩
    obtain ⟨⟨rfl, rfl, rfl⟩, -⟩ : (b = b' ∧ c = c' ∧ d = d') ∧ s.pc + 9 = n := by simpa [hdec] using hdec'
    exact ⟨Memory.len_grow s.mem b, rfl⟩

/-- Settles O30: an instruction that retires and one that traps emit their event alike; no other transition emits one. -/
theorem oneTraceEventPerDecodedInstruction : Obligations.OneTraceEventPerDecodedInstruction := by
  intro s t hstep
  cases step_eq_next_iff.mp hstep with
  | halted hhalt => simp [hhalt]
  | ended _ hend => simp [hend, decode_end]
  | undecoded _ hdec => simp [hdec]
  | retired hrun hdec _ => simp +contextual [hrun, hdec]
  | trapped hrun hdec _ => simp +contextual [hrun, hdec]

/-- Settles O31: no transition writes one of the three. -/
theorem stepNeverWritesProgramOrConfiguration : Obligations.StepNeverWritesProgramOrConfiguration := by
  intro s t hstep
  cases step_eq_next_iff.mp hstep <;> exact ⟨rfl, rfl, rfl⟩

end Sys2Proof.Machine
end

section
/-! PROOFS. What the length of Memory and the trace can influence (spec 20_memory.md R33, R36; 10_state.md R17, R19). -/

namespace Sys2Proof.Machine

theorem len_le_memAfter (i : Instr) (m : Memory) : m.len ≤ (memAfter i m).len := by
  cases i with
  | loadConst b c => simp [memAfter]
  | loadMem b c d =>
    rw [memAfter, len_copyCells]
    split <;> omega
  | store b c => simp [memAfter]
  | sqrt b c d => simp [memAfter]

/-- Settles O32: of the transitions only a retired instruction and a trapped SQRT touch the length, and both grow it. -/
theorem memoryNeverShrinks : Obligations.MemoryNeverShrinks := by
  intro s t hstep
  cases step_eq_next_iff.mp hstep with
  | halted _ => exact le_rfl
  | ended _ _ => exact le_rfl
  | undecoded _ _ => exact le_rfl
  | @retired i _ _ _ => exact len_le_memAfter i s.mem
  | trapped _ _ _ => simp

theorem cells_copyCells_congr (dst src n : Nat) {m m' : Memory} (h : m.cells = m'.cells) :
    (copyCells dst src n m).cells = (copyCells dst src n m').cells := by
  induction n with
  | zero => exact h
  | succ n ih =>
    simp only [copyCells_succ, copyCell, Memory.write, Memory.read, Memory.grow, Memory.get, ih]

/-- The cells an instruction leaves depend on the cells it found and not on the length (R36). -/
theorem cells_memAfter_congr (i : Instr) {m m' : Memory} (h : m.cells = m'.cells) :
    (memAfter i m).cells = (memAfter i m').cells := by
  cases i with
  | loadConst b c => simp only [memAfter, Memory.write, Memory.cells_grow, h]
  | loadMem b c d => exact cells_copyCells_congr b d c h
  | store b c => exact cells_copyCells_congr c b 1 h
  | sqrt b c d => simp only [memAfter, Memory.write, Memory.cells_grow, Memory.get, h]

/-- Memory with another length over the same cells. -/
def Memory.withLen (n : Nat) (m : Memory) : Memory := { m with len := n }

theorem memAfter_withLen (i : Instr) (m : Memory) (n : Nat) :
    memAfter i (m.withLen n) = (memAfter i m).withLen (memAfter i (m.withLen n)).len := by
  have hcells : (memAfter i (m.withLen n)).cells = (memAfter i m).cells := cells_memAfter_congr i rfl
  exact congrArg (fun cells => Memory.mk cells (memAfter i (m.withLen n)).len) hcells

/-- Settles O33: no test of a step looks at the length, and the cells do not depend on it by `memAfter_withLen`. -/
theorem lengthInfluencesNothingElse : Obligations.LengthInfluencesNothingElse := by
  intro s t n hstep
  cases step_eq_next_iff.mp hstep with
  | halted hhalt => exact ⟨n, step_halted hhalt⟩
  | ended hrun hend => exact ⟨n, step_at_end hrun hend⟩
  | undecoded hrun hdec => exact ⟨n, step_of_decode_error hrun hdec⟩
  | @retired i hrun hdec hnonneg =>
    have hretire := (Transition.retired (s := s.withMem (s.mem.withLen n)) hrun hdec hnonneg).step_eq
    rw [State.withMem_mem, memAfter_withLen] at hretire
    exact ⟨_, hretire⟩
  | trapped hrun hdec hneg =>
    exact ⟨_, (Transition.trapped (s := s.withMem (s.mem.withLen n)) hrun hdec hneg).step_eq⟩

/-- The state with another `TRACE_EN` and another trace. -/
def State.withTrace (en : Bool) (tr : List TraceEvent) (s : State) : State := { s with traceEn := en, trace := tr }

/-- Settles O34: the same transition is taken, since neither `TRACE_EN` nor the trace stands in a condition of one. -/
theorem traceInfluencesNothingElse : Obligations.TraceInfluencesNothingElse := by
  intro s t en tr hstep
  cases step_eq_next_iff.mp hstep with
  | halted hhalt => exact ⟨_, (Transition.halted (s := s.withTrace en tr) hhalt).step_eq⟩
  | ended hrun hend => exact ⟨_, (Transition.ended (s := s.withTrace en tr) hrun hend).step_eq⟩
  | undecoded hrun hdec => exact ⟨_, (Transition.undecoded (s := s.withTrace en tr) hrun hdec).step_eq⟩
  | retired hrun hdec hnonneg => exact ⟨_, (Transition.retired (s := s.withTrace en tr) hrun hdec hnonneg).step_eq⟩
  | trapped hrun hdec hneg => exact ⟨_, (Transition.trapped (s := s.withTrace en tr) hrun hdec hneg).step_eq⟩

end Sys2Proof.Machine
end

section
/-! PROOFS. Reset, the host's reads, and the placing of a word at `pc` (spec 10_state.md R25, R26; 70_reset_and_hazards.md
R140 to R142). -/

namespace Sys2Proof.Machine

/-- Settles O11: a read grows Memory first, which changes no cell. -/
theorem peekShowsWhatReadReturns : Obligations.PeekShowsWhatReadReturns := by
  intro s a
  exact ⟨rfl, fun hbounded ha => hbounded a ha⟩

/-- Settles O44: field by field. -/
theorem resetLeavesTheSpecValues : Obligations.ResetLeavesTheSpecValues :=
  ⟨fun _ => ⟨⟨rfl, rfl, rfl⟩, rfl, rfl, rfl, rfl, fun _ => rfl, rfl, rfl⟩, rfl⟩

/-- Settles O45: the three ways a step of a running engine can go, at offset 0. -/
theorem firstStepDecodesOffsetZero : Obligations.FirstStepDecodesOffsetZero := by
  intro prog n tr s
  refine ⟨?_, fun i m hdec => step_of_decode rfl hdec, fun e hdec => ?_⟩
  · rintro rfl
    exact step_at_end rfl rfl
  · exact ⟨_, step_of_decode_error rfl hdec, rfl, rfl, rfl, rfl, rfl⟩

/-- Bytes laid over a buffer stand there from the offset on, whatever surrounds them. -/
theorem exists_overlay_eq (buf : List Byte) (off : Nat) (bytes : List Byte) :
    ∃ before after, overlay buf off bytes = before ++ bytes ++ after ∧ before.length = off :=
  ⟨_, _, rfl, by simp; omega⟩

/-- What a byte string decodes to at its start it decodes to inside any buffer, since decoding reads no byte behind the
instruction. -/
theorem decode_append_of_decode {bytes : List Byte} {i : Instr} {n : Nat} (h : decode bytes 0 = .ok (some i, n))
    (before after : List Byte) :
    decode (before ++ bytes ++ after) before.length = .ok (some i, before.length + i.width) := by
  have hbytes : bytes = encode i ++ bytes.drop n := drop_of_decode h
  rw [hbytes, List.append_assoc, List.append_assoc, ← List.append_assoc]
  exact decode_encode (wellFormed_of_decode h) before _

theorem decode_of_decodeTableWord {nbits w : Nat} {i : Instr} (h : decodeTableWord nbits w = some i) :
    ∃ n, decode (wordBytes nbits w) 0 = .ok (some i, n) := by
  rw [decodeTableWord] at h
  split at h
  · next found n hdec => exact ⟨n, h ▸ hdec⟩
  · simp at h

/-- Settles O46: the word's bytes stand at `pc` of the new buffer, where they decode as they do alone. -/
theorem placedWordRunsNext : Obligations.PlacedWordRunsNext := by
  intro s nbits w i hword
  obtain ⟨n, hdec⟩ := decode_of_decodeTableWord hword
  obtain ⟨before, after, hbuf, hpc⟩ := exists_overlay_eq s.prog s.pc (wordBytes nbits w)
  have hplaced := decode_append_of_decode hdec before after
  rw [← hbuf, hpc] at hplaced
  exact ⟨step_of_decode rfl hplaced, rfl, rfl⟩

end Sys2Proof.Machine
end

section
/-! PROOFS. What every step keeps, and so every run from reset (spec 10_state.md R12 to R18; 20_memory.md R33, R40). -/

namespace Sys2Proof.Machine

/-! ### What the effect of an instruction keeps of Memory -/

theorem wf_memAfter (i : Instr) {m : Memory} (h : m.wf) : (memAfter i m).wf := by
  cases i with
  | loadConst b c => exact Memory.wf_write _ _ h
  | loadMem b c d => exact wf_copyCells _ _ _ h
  | store b c => exact wf_copyCell _ _ h
  | sqrt b c d => exact Memory.wf_write _ _ (Memory.wf_grow b h)

/-- The Memory of `exec_retires_inRange` is `memAfter` (R18). -/
theorem inRange_memAfter {i : Instr} {s : State} (hwf : i.wellFormed = true) (h : s.mem.InRange) :
    (memAfter i s.mem).InRange := by
  obtain ⟨m, hexec, hm⟩ := exec_retires_inRange hwf h
  have hsame : s.retire i (memAfter i s.mem) = s.retire i m :=
    next_inj ((exec_eq_retire fun b _ _ _ => (h b).1).symm.trans hexec)
  have hmem : memAfter i s.mem = m := congrArg State.mem hsame
  rwa [hmem]

theorem Memory.bounded_grow {m : Memory} (a : Nat) (h : m.Bounded) : (m.grow a).Bounded := by
  intro b hb
  rw [Memory.len_grow] at hb
  exact h b (le_of_max_le_left hb)

/-- `MemWrite` grows Memory past the one cell it sets (R33, R35). -/
theorem Memory.bounded_write {m : Memory} (a : Nat) (v : Int) (h : m.Bounded) : (m.write a v).Bounded := by
  intro b hb
  rw [Memory.len_write, max_le_iff] at hb
  obtain ⟨hlen, ha⟩ := hb
  rw [Memory.get_write, if_neg (by omega), h b hlen]

theorem bounded_copyCell {m : Memory} (dst src : Nat) (h : m.Bounded) : (copyCell dst src m).Bounded :=
  Memory.bounded_write _ _ (Memory.bounded_grow src h)

theorem bounded_copyCells {m : Memory} (dst src n : Nat) (h : m.Bounded) : (copyCells dst src n m).Bounded := by
  induction n with
  | zero => exact h
  | succ n ih => exact bounded_copyCell _ _ ih

theorem bounded_memAfter (i : Instr) {m : Memory} (h : m.Bounded) : (memAfter i m).Bounded := by
  cases i with
  | loadConst b c => exact Memory.bounded_write _ _ h
  | loadMem b c d => exact bounded_copyCells _ _ _ h
  | store b c => exact bounded_copyCell _ _ h
  | sqrt b c d => exact Memory.bounded_write _ _ (Memory.bounded_grow b h)

/-- The largest address a well-formed instruction can reach is that of the last source cell of LOAD_MEM, with the largest
count and the largest source base (R40). -/
theorem len_memAfter_le {i : Instr} (hwf : i.wellFormed = true) (m : Memory) :
    (memAfter i m).len ≤ max m.len (2 ^ 25 - 2) := by
  cases i <;> simp only [Instr.wellFormed, fitsField, Bool.and_eq_true, decide_eq_true_eq] at hwf
  case loadConst b c =>
    rw [memAfter, Memory.len_write]
    omega
  case loadMem b c d =>
    rw [memAfter, len_copyCells]
    split <;> omega
  case store b c =>
    rw [memAfter, len_copyCell]
    omega
  case sqrt b c d =>
    rw [memAfter, Memory.len_write, Memory.len_grow]
    omega

/-! ### The invariants under a step -/

/-- Settles O35: only an instruction that retires sets cells, and `wf_memAfter` keeps the form. -/
theorem stepKeepsMemoryCanonical : Obligations.StepKeepsMemoryCanonical := by
  intro s t hwf hstep
  cases step_eq_next_iff.mp hstep with
  | halted _ => exact hwf
  | ended _ _ => exact hwf
  | undecoded _ _ => exact hwf
  | @retired i _ _ _ => exact wf_memAfter i hwf
  | @trapped b _ _ _ _ _ => exact Memory.wf_grow b hwf

theorem fault_eq_none_of_running {s : State} (h : s.FaultRecordOk) (hrun : s.status = .running) : s.fault = none := by
  by_contra hfault
  obtain ⟨hhalt, -⟩ := h.2 hfault
  simp [hrun] at hhalt

/-- A fault raised at a `pc` before the end leaves a consistent record (R14, R15). -/
theorem faultRecordOk_of_raised {t : State} {k : EngineFault} (hhalt : t.status = .halted) (hfault : t.fault = some k)
    (hfaultPc : t.faultPc = some t.pc) (hpc : t.pc < t.prog.length) : t.FaultRecordOk :=
  ⟨fun h => by simp [hfault] at h, fun _ => ⟨hhalt, hfaultPc, hpc⟩⟩

/-- Settles O36: a running engine has no fault on record; a step records one only before the end, halts without one only
at the end, and moves `pc` only over bytes that `Decode` has found in the buffer. -/
theorem stepKeepsPcAndFaultRecord : Obligations.StepKeepsPcAndFaultRecord := by
  intro s t hpc hrecord hstep
  cases step_eq_next_iff.mp hstep with
  | halted _ => exact ⟨hpc, hrecord⟩
  | ended hrun hend =>
    have hnofault := fault_eq_none_of_running hrecord hrun
    obtain ⟨hfaultPc, -⟩ := hrecord.1 hnofault
    exact ⟨hpc, fun _ => ⟨hfaultPc, fun _ => hend⟩, fun hfault => absurd hnofault hfault⟩
  | undecoded _ hdec =>
    exact ⟨hpc, faultRecordOk_of_raised rfl rfl rfl (lt_of_le_of_ne hpc (pc_ne_of_decode_error hdec))⟩
  | retired hrun hdec _ =>
    have hnofault := fault_eq_none_of_running hrecord hrun
    obtain ⟨hfaultPc, -⟩ := hrecord.1 hnofault
    obtain ⟨hle, -⟩ := decode_ok_some hdec
    exact ⟨hle, fun _ => ⟨hfaultPc, fun hhalt => by simp [hrun] at hhalt⟩, fun hfault => absurd hnofault hfault⟩
  | trapped _ hdec _ => exact ⟨hpc, faultRecordOk_of_raised rfl rfl rfl (pc_lt_of_decode_some hdec)⟩

/-- Settles O37: `inRange_memAfter` for an instruction that retires; a cell in range is not negative, so none traps. -/
theorem stepKeepsCellsInRange : Obligations.StepKeepsCellsInRange := by
  intro s t hrange hstep
  cases step_eq_next_iff.mp hstep with
  | halted _ => exact ⟨hrange, id⟩
  | ended _ _ => exact ⟨hrange, id⟩
  | @undecoded e _ _ => exact ⟨hrange, fun _ h => engineFaultOf_ne_domainError e (Option.some.inj h)⟩
  | retired _ hdec _ => exact ⟨inRange_memAfter (wellFormed_of_decode hdec) hrange, id⟩
  | @trapped b _ _ _ _ hneg => exact absurd (hrange b).1 (not_le.mpr hneg)

/-- Settles O38: every access grows Memory to hold its address. -/
theorem stepKeepsCellsPastLengthZero : Obligations.StepKeepsCellsPastLengthZero := by
  intro s t hbounded hstep
  cases step_eq_next_iff.mp hstep with
  | halted _ => exact hbounded
  | ended _ _ => exact hbounded
  | undecoded _ _ => exact hbounded
  | @retired i _ _ _ => exact bounded_memAfter i hbounded
  | @trapped b _ _ _ _ _ => exact Memory.bounded_grow b hbounded

/-- Settles O39: a decoded instruction is well formed, so `len_memAfter_le` bounds what it reaches; a SQRT that traps has
reached no further than one that retires. -/
theorem memoryLengthStaysWithinTheAddressableRange : Obligations.MemoryLengthStaysWithinTheAddressableRange := by
  intro s t hlen hstep
  cases step_eq_next_iff.mp hstep with
  | halted _ => exact hlen
  | ended _ _ => exact hlen
  | undecoded _ _ => exact hlen
  | retired _ hdec _ =>
    exact (len_memAfter_le (wellFormed_of_decode hdec) s.mem).trans (max_le hlen (le_max_right _ _))
  | @trapped b c d _ hdec _ =>
    have hreach : (s.mem.grow b).len ≤ (memAfter (.sqrt b c d) s.mem).len := by
      rw [memAfter, Memory.len_write]
      exact le_max_left _ _
    exact (hreach.trans (len_memAfter_le (wellFormed_of_decode hdec) s.mem)).trans (max_le hlen (le_max_right _ _))

/-! ### The invariants along every run from reset -/

theorem inv_resetWith (prog : List Byte) (n : Nat) (tr : Bool) : (State.resetWith prog n tr).Inv where
  memCanonical := wf_resetWith prog n tr
  memBounded := fun a _ => Memory.get_empty n a
  memInRange := Memory.inRange_empty n
  pcInProgram := Nat.zero_le _
  faultRecord := ⟨fun _ => ⟨rfl, fun h => by simp at h⟩, fun h => absurd rfl h⟩

/-- Settles O40: `State.reset` is the case of the default configuration. -/
theorem resetMeetsTheInvariants : Obligations.ResetMeetsTheInvariants :=
  ⟨inv_resetWith, inv_resetWith _ _ _⟩

/-- Every step keeps the engine's invariant. -/
theorem inv_step {s t : State} (h : s.Inv) (hstep : step s = .next t) : t.Inv where
  memCanonical := stepKeepsMemoryCanonical s t h.memCanonical hstep
  memBounded := stepKeepsCellsPastLengthZero s t h.memBounded hstep
  memInRange := (stepKeepsCellsInRange s t h.memInRange hstep).1
  pcInProgram := (stepKeepsPcAndFaultRecord s t h.pcInProgram h.faultRecord hstep).1
  faultRecord := (stepKeepsPcAndFaultRecord s t h.pcInProgram h.faultRecord hstep).2

/-- What every step keeps, a run keeps. -/
theorem runSteps_keeps {P : State → Prop} (hkeep : ∀ s t, P s → step s = .next t → P t) {k : Nat} {s t : State}
    (hs : P s) (hrun : runSteps k s = .next t) : P t := by
  induction k generalizing s with
  | zero => exact next_inj hrun ▸ hs
  | succ k ih =>
    cases hstatus : s.status with
    | halted =>
      rw [runSteps_halted hstatus] at hrun
      exact next_inj hrun ▸ hs
    | running =>
      obtain ⟨u, hu⟩ := exists_transition s
      rw [runSteps_running hstatus hu.step_eq] at hrun
      exact ih (hkeep s u hs hu.step_eq) hrun

/-- Settles O41: the invariant with the absence of `DomainError` holds at reset and is kept by every step. -/
theorem everyRunFromResetMeetsTheInvariants : Obligations.EveryRunFromResetMeetsTheInvariants := by
  intro prog n tr k t hrun
  refine runSteps_keeps (P := fun s => s.Inv ∧ s.fault ≠ some .domainError) ?_ ⟨inv_resetWith prog n tr, by simp⟩ hrun
  rintro s u ⟨hinv, hfault⟩ hstep
  obtain ⟨-, hnoDomainError⟩ := stepKeepsCellsInRange s u hinv.memInRange hstep
  exact ⟨inv_step hinv hstep, hnoDomainError hfault⟩

end Sys2Proof.Machine
end

section
/-! PROOFS. Program buffers: a list of instructions and the bytes it is assembled to, and where decoding a buffer stops
(spec 30_encoding.md R60). -/

namespace Sys2Proof

open Machine

theorem assemble_length (is : List Instr) : (assemble is).length = (is.map Instr.width).sum := by
  induction is with
  | nil => rfl
  | cons i is ih => simp [encode_length, ih]

theorem five_mul_length_le (is : List Instr) : 5 * is.length ≤ (assemble is).length := by
  induction is with
  | nil => simp
  | cons i is ih =>
    obtain ⟨hwidth, -⟩ := width_bounds i
    rw [assemble_cons, List.length_append, encode_length, List.length_cons]
    omega

theorem decodeFrom_end {buf : List Byte} {off : Nat} (h : off = buf.length) (fuel : Nat) :
    decodeFrom buf (fuel + 1) off = .ok [] := by
  simp [decodeFrom, h, decode_end]

theorem decodeFrom_error {buf : List Byte} {off : Nat} {e : DecodeError} (h : decode buf off = .error e) (fuel : Nat) :
    decodeFrom buf (fuel + 1) off = .error e := by
  simp [decodeFrom, h]

theorem decodeFrom_some {buf : List Byte} {off n : Nat} {i : Instr} (h : decode buf off = .ok (some i, n))
    (fuel : Nat) : decodeFrom buf (fuel + 1) off = (decodeFrom buf fuel n).map (fun is => i :: is) := by
  simp only [decodeFrom, h]
  cases decodeFrom buf fuel n <;> rfl

/-- The instructions at the end of a buffer are decoded with any budget above their number (R60). -/
theorem decodeFrom_assemble {is : List Instr} (hwf : ∀ i ∈ is, i.wellFormed = true) (before : List Byte) {fuel : Nat}
    (hfuel : is.length < fuel) : decodeFrom (before ++ assemble is) fuel before.length = .ok is := by
  induction is generalizing before fuel with
  | nil =>
    obtain ⟨fuel, rfl⟩ := Nat.exists_eq_add_of_lt hfuel
    exact decodeFrom_end (by simp) _
  | cons i is ih =>
    obtain ⟨hi, his⟩ := List.forall_mem_cons.mp hwf
    obtain ⟨fuel, rfl⟩ := Nat.exists_eq_succ_of_ne_zero (Nat.ne_of_gt (Nat.zero_lt_of_lt hfuel))
    have hdec := decode_encode hi before (assemble is)
    have hrest := ih his (before ++ encode i) (Nat.lt_of_succ_lt_succ hfuel)
    rw [List.length_append, encode_length] at hrest
    rw [assemble_cons, ← List.append_assoc, decodeFrom_some hdec, hrest]
    rfl

theorem decodeProgram_assemble {is : List Instr} (hwf : ∀ i ∈ is, i.wellFormed = true) :
    decodeProgram (assemble is) = .ok is := by
  have hlen := five_mul_length_le is
  exact decodeFrom_assemble hwf [] (by omega)

theorem off_eq_length_of_decode_none {buf : List Byte} {off n : Nat} (h : decode buf off = .ok (none, n)) :
    off = buf.length := by
  rcases decode_cases buf off with ⟨hend, -⟩ | ⟨-, h'⟩ | ⟨-, -, h'⟩ | ⟨op, -, -, -, h'⟩ | ⟨op, -, -, -, h'⟩
  case inl => exact hend
  all_goals simp [h] at h'

/-- Decoding with a budget that suffices reads well-formed instructions off the front of what is left, and stops at the
end of the buffer or where `Decode` answers an error (R60). -/
theorem decodeFrom_outcome {buf : List Byte} (fuel : Nat) {off : Nat} (hfuel : buf.length - off < 5 * fuel) :
    ∃ is rest, (∀ i ∈ is, i.wellFormed = true) ∧ buf.drop off = assemble is ++ rest ∧
      ((decodeFrom buf fuel off = .ok is ∧ rest = []) ∨
        ∃ e, decodeFrom buf fuel off = .error e ∧ decode buf (off + (assemble is).length) = .error e) := by
  induction fuel generalizing off with
  | zero => omega
  | succ fuel ih =>
    rcases hdec : decode buf off with e | ⟨_ | i, n⟩
    · exact ⟨[], buf.drop off, by simp, rfl, .inr ⟨e, decodeFrom_error hdec fuel, hdec⟩⟩
    · have hend : off = buf.length := off_eq_length_of_decode_none hdec
      exact ⟨[], [], by simp, by simp [hend], .inl ⟨decodeFrom_end hend fuel, rfl⟩⟩
    · obtain ⟨hle, hn⟩ := decode_ok_some hdec
      obtain ⟨hwidth, -⟩ := width_bounds i
      obtain ⟨is, rest, hwf, hdrop, hout⟩ := ih (off := n) (by omega)
      refine ⟨i :: is, rest, List.forall_mem_cons.mpr ⟨wellFormed_of_decode hdec, hwf⟩, ?_, ?_⟩
      · rw [drop_of_decode hdec, hdrop, assemble_cons, List.append_assoc]
      · rw [decodeFrom_some hdec]
        rcases hout with ⟨hok, hnil⟩ | ⟨e, herr, hstop⟩
        · exact .inl ⟨by rw [hok]; rfl, hnil⟩
        · refine .inr ⟨e, by rw [herr]; rfl, ?_⟩
          rw [assemble_cons, List.length_append, encode_length, ← Nat.add_assoc, ← hn, hstop]

/-- A buffer is the encoding of the well-formed instructions it begins with and a rest, which is empty where the whole
buffer decodes, and begins with the bytes at which `Decode` fails where it does not (R60). -/
theorem decodeProgram_outcome (buf : List Byte) :
    ∃ is rest, (∀ i ∈ is, i.wellFormed = true) ∧ buf = assemble is ++ rest ∧
      ((decodeProgram buf = .ok is ∧ rest = []) ∨
        ∃ e, decodeProgram buf = .error e ∧ decode buf (assemble is).length = .error e) := by
  simpa [decodeProgram] using decodeFrom_outcome (buf := buf) (buf.length / 5 + 1) (off := 0) (by omega)

theorem assemble_of_decodeProgram {buf : List Byte} {is : List Instr} (h : decodeProgram buf = .ok is) :
    (∀ i ∈ is, i.wellFormed = true) ∧ assemble is = buf := by
  obtain ⟨js, rest, hwf, hbuf, ⟨hok, rfl⟩ | ⟨e, herr, -⟩⟩ := decodeProgram_outcome buf
  · obtain rfl : js = is := Except.ok.inj (hok.symm.trans h)
    exact ⟨hwf, by simpa using hbuf.symm⟩
  · simp [herr] at h

end Sys2Proof
end

section
/-! PROOFS. Whole runs: every run ends, the instructions of a buffer take effect in its order, and what a buffer decodes to
decides how its run from reset ends (spec 30_encoding.md R60; 41_execution_engine.md R93 to R95). -/

namespace Sys2Proof.Machine

/-! ### Every run ends -/

/-- Each instruction takes 5 bytes at least, so that many steps lead from `pc` to the end, and one more halts; a longer
run stays there (R93, R94). -/
theorem exists_runSteps_halted (n : Nat) {s : State} (hpc : s.PcInProgram) (hrecord : s.FaultRecordOk)
    (hn : s.prog.length - s.pc < 5 * n) :
    ∃ t, (∀ k, runSteps (n + k) s = .next t) ∧ t.status = .halted ∧ t.FaultRecordOk := by
  induction n generalizing s with
  | zero => omega
  | succ n ih =>
    cases hstatus : s.status with
    | halted => exact ⟨s, fun k => runSteps_halted hstatus _, hstatus, hrecord⟩
    | running =>
      obtain ⟨u, hu⟩ := exists_transition s
      have hstep := hu.step_eq
      obtain ⟨hpcu, hrecordu⟩ := stepKeepsPcAndFaultRecord s u hpc hrecord hstep
      have hfirst (k : Nat) : runSteps (n + 1 + k) s = runSteps (n + k) u := by
        rw [Nat.add_right_comm, runSteps_running hstatus hstep]
      simp only [hfirst]
      cases hu with
      | halted hhalt => simp [hstatus] at hhalt
      | ended _ _ => exact ⟨_, fun k => runSteps_halted rfl _, rfl, hrecordu⟩
      | undecoded _ _ => exact ⟨_, fun k => runSteps_halted rfl _, rfl, hrecordu⟩
      | trapped _ _ _ => exact ⟨_, fun k => runSteps_halted rfl _, rfl, hrecordu⟩
      | @retired i _ hdec _ =>
        refine ih hpcu hrecordu ?_
        obtain ⟨hle, -⟩ := decode_ok_some hdec
        obtain ⟨hwidth, -⟩ := width_bounds i
        rw [State.retire_prog, State.retire_pc]
        omega

/-- Settles O42: the run of `(L - pc) div 5 + 1` steps and the longer one of `run` end in the same state. -/
theorem everyRunEnds : Obligations.EveryRunEnds := by
  intro s hpc hrecord
  obtain ⟨t, hsteps, hhalt, hnofault, hfault⟩ :=
    exists_runSteps_halted ((s.prog.length - s.pc) / 5 + 1) hpc hrecord (by omega)
  have hrun : run s = .next t := by
    rw [run, ← hsteps (s.prog.length / 5 - (s.prog.length - s.pc) / 5)]
    congr 1
    omega
  refine ⟨t, hrun, hsteps 0, hhalt, ?_⟩
  by_cases h : t.fault = none
  · obtain ⟨-, hend⟩ := hnofault h
    exact .inl ⟨h, hend hhalt⟩
  · obtain ⟨-, hrest⟩ := hfault h
    exact .inr ⟨h, hrest⟩

/-- Settles O43: `runSteps_assemble` with no step after the last instruction. -/
theorem instructionsExecuteInBufferOrder : Obligations.InstructionsExecuteInBufferOrder := by
  intro is before after s hwf hprog hpc hrun hmem
  obtain ⟨t, hsteps, hall, hstatus, hfault, -, hend⟩ := runSteps_assemble hwf hprog hpc hrun hmem
  exact ⟨t, hsteps 0, hall, hstatus, hfault, hend⟩

/-! ### The run of a program buffer -/

/-- A run from reset comes through the instructions its buffer begins with to a state behind the last of them, and where
the step from there halts, that is where the run ends. -/
theorem run_resetWith_assemble {is : List Instr} {buf rest : List Byte} (hwf : ∀ i ∈ is, i.wellFormed = true)
    (hbuf : buf = assemble is ++ rest) (n : Nat) (tr : Bool) :
    ∃ t, t.status = .running ∧ t.fault = none ∧ t.prog = buf ∧ t.pc = (assemble is).length ∧
      ∀ u, step t = .next u → u.status = .halted → run (State.resetWith buf n tr) = .next u := by
  obtain ⟨t, hsteps, -, hrun, hfault, hprog, hpc⟩ :=
    runSteps_assemble (before := []) (after := rest) (s := State.resetWith buf n tr) hwf hbuf rfl rfl
      (Memory.inRange_empty n)
  refine ⟨t, hrun, hfault, hprog, by simpa using hpc, fun u hstep hhalt => ?_⟩
  have hcount : is.length ≤ buf.length / 5 := by
    have hlen := five_mul_length_le is
    have hle : (assemble is).length ≤ buf.length := by simp [hbuf]
    omega
  obtain ⟨k, hk⟩ := Nat.exists_eq_add_of_le hcount
  rw [run, State.resetWith_prog, hk, Nat.add_assoc, hsteps, runSteps_running hrun hstep, runSteps_halted hhalt]

/-- The run of a buffer that decodes to its end (R60). -/
theorem run_of_decodeProgram_ok {buf : List Byte} {is : List Instr} (h : decodeProgram buf = .ok is) (n : Nat)
    (tr : Bool) : ∃ t, run (State.resetWith buf n tr) = .next t ∧ t.EndedNormally ∧ t.pc = buf.length := by
  obtain ⟨hwf, hbuf⟩ := assemble_of_decodeProgram h
  have hsplit : buf = assemble is ++ [] := by rw [hbuf, List.append_nil]
  obtain ⟨t, hrun, hfault, hprog, hpc, hlast⟩ := run_resetWith_assemble hwf hsplit n tr
  rw [hbuf] at hpc
  have hstep := step_at_end hrun (hprog ▸ hpc)
  exact ⟨_, hlast _ hstep rfl, ⟨rfl, hfault⟩, hpc⟩

/-- The run of a buffer that `Decode` fails on (R60, R127). -/
theorem run_of_decodeProgram_error {buf : List Byte} {e : DecodeError} (h : decodeProgram buf = .error e) (n : Nat)
    (tr : Bool) : ∃ t is, run (State.resetWith buf n tr) = .next t ∧ (∀ i ∈ is, i.wellFormed = true) ∧
      assemble is = buf.take (assemble is).length ∧ decode buf (assemble is).length = .error e ∧
      t.status = .halted ∧ t.fault = some (engineFaultOf e) ∧ t.faultPc = some (assemble is).length ∧
      t.pc = (assemble is).length := by
  obtain ⟨is, rest, hwf, hbuf, ⟨hok, -⟩ | ⟨e', herr, hdec⟩⟩ := decodeProgram_outcome buf
  · simp [hok] at h
  · obtain rfl : e' = e := Except.error.inj (herr.symm.trans h)
    obtain ⟨t, hrun, -, hprog, hpc, hlast⟩ := run_resetWith_assemble hwf hbuf n tr
    have hstep := step_of_decode_error hrun (by rw [hprog, hpc, hdec])
    exact ⟨_, is, hlast _ hstep rfl, hwf, by simp [hbuf], hdec, rfl, rfl, by simp [hpc], hpc⟩

/-- Settles O9: the two directions of the codec over lists, and the run of a buffer by what the whole of it decodes to. -/
theorem programBuffer : Obligations.ProgramBuffer := by
  refine ⟨fun is hwf => ⟨assemble_length is, decodeProgram_assemble hwf⟩, fun buf is => assemble_of_decodeProgram,
    fun n tr => ?_, fun buf n tr => ?_⟩
  · have hstep : step (State.resetWith [] n tr) = .next (State.resetWith [] n tr).haltNormally := step_at_end rfl rfl
    have hrun : run (State.resetWith [] n tr) = .next (State.resetWith [] n tr).haltNormally :=
      (runSteps_running rfl hstep _).trans (runSteps_halted rfl _)
    exact ⟨_, hrun, ⟨rfl, rfl⟩, rfl, rfl, rfl⟩
  · cases hprog : decodeProgram buf with
    | ok is =>
      obtain ⟨t, hrun, hend, hpc⟩ := run_of_decodeProgram_ok hprog n tr
      exact ⟨t, hrun, fun _ _ => ⟨hend, hpc⟩, by simp⟩
    | error e =>
      obtain ⟨t, is, hrun, hrest⟩ := run_of_decodeProgram_error hprog n tr
      refine ⟨t, hrun, by simp, fun e' he' => ?_⟩
      obtain rfl : e = e' := Except.error.inj he'
      exact ⟨is, hrest⟩

end Sys2Proof.Machine
end
